-- ==== Sys2Proof/Word.lean ====
section
/-! DEFINITION. The word types of the machine: a register, a byte, and the fields of an instruction word
(R5, R8, R91, R95, R96). -/

namespace Sys2Proof

/-- A register value, an address, an instruction word (R5, R8, R90). -/
abbrev Word := BitVec 32

/-- The unit of addressing (R5, R60). -/
abbrev Byte := BitVec 8

/-- A register number, as the 5-bit fields `rs`, `rt`, `rd` hold it (R32, R92). -/
abbrev Reg := BitVec 5

/-- The 5-bit constant shift amount (R92, R101). -/
abbrev Shamt := BitVec 5

/-- The 16-bit immediate of the I format (R95). -/
abbrev Imm := BitVec 16

/-- The 26-bit pseudo-address of the J format (R96). -/
abbrev Addr26 := BitVec 26

end Sys2Proof
end

