-- ==== Sys2Proof/Machine/Flags.lean ====
section
/-! DEFINITION. The machine has no flags and no condition codes (R39). What takes their place: the test for integer
overflow (R130), which raises an exception, and the comparisons, which write 0 or 1 into a register (R187). -/

namespace Sys2Proof.Machine

/-- Whether an exact result fits 32 bits in two's complement (R130). -/
def fitsSigned (e : Int) : Bool := decide (-2147483648 ≤ e) && decide (e ≤ 2147483647)

/-- `signed(a) + signed(b)`, exact (R133, R137). -/
def exactSum (a b : Word) : Int := a.toInt + b.toInt

/-- `signed(a) - signed(b)`, exact (R135). -/
def exactDifference (a b : Word) : Int := a.toInt - b.toInt

/-- Less-than on two's-complement integers (R187). -/
def lessSigned (a b : Word) : Bool := decide (a.toInt < b.toInt)

/-- Less-than on natural numbers (R187). -/
def lessUnsigned (a b : Word) : Bool := decide (a.toNat < b.toNat)

/-- The value a comparison writes: exactly 1 or 0 (R187). -/
def truthWord (b : Bool) : Word := if b then 1 else 0

end Sys2Proof.Machine
end

