-- ==== Sys2Proof/Config.lean ====
section
/-! DEFINITION. What the spec leaves to the platform or to the launch of a run (R6): the parameters, as plain
data, and the draws, which nothing can evaluate. -/

namespace Sys2Proof

/-- `ENDIAN` (R63, D1): the byte order of memory, for data and fetch alike. -/
inductive Endian where
  | little
  | big
  deriving DecidableEq, Repr

/-- `TRAP_MODE` (R214, D9): what happens after trap entry has recorded its state. -/
inductive TrapMode where
  | halt
  | vector
  deriving DecidableEq, Repr

/-- The addresses `base`, `base + 1`, ..., `base + size - 1`. -/
structure Region where
  base : Nat
  size : Nat
  deriving DecidableEq, Repr

/-- The parameters of a run (R6, R242). DESIGN CHOICE (log 1): they are plain data beside the state, so a claim
about every state is a claim about every value of them; no step writes them. -/
structure Config where
  /-- `ENDIAN` (R63, D1). -/
  endian : Endian
  /-- `MEM_DOMAIN` (R66, D7): the populated byte addresses. -/
  memDomain : List Region
  /-- `TEXT` (R74, D6): the words that hold the program. -/
  text : List Region
  /-- `RESET_PC` (R240, D12). -/
  resetPc : Word
  /-- `END_PC` (R243, D13), or none where the launch gives none (log 6). -/
  endPc : Option Word
  /-- `TRAP_MODE` (R214, D9). -/
  trapMode : TrapMode
  /-- `EXC_VECTOR` (R215, D9). -/
  excVector : Word
  /-- `STRICT_ZERO_FIELDS` (R113, D16). -/
  strictZeroFields : Bool
  deriving DecidableEq, Repr

/-- `any32()` (R12, U1-U3, D14, D15): the value of the n-th draw of a run. It has no body: nothing is known of any
draw, and two draws need not agree (log 10). -/
opaque Config.any32 : Nat → Word

end Sys2Proof
end

