-- ==== Sys2Proof/Syntax.lean ====
section
/-! DEFINITION. The instructions: one constructor for each of the 39 rows of spec/opcode_table.json, its operands
in the order the assembler writes them (R103). The unused fields of a row are no operands (R113). -/

namespace Sys2Proof

/-- The instructions in scope (R2, R111). -/
inductive Instr where
  -- R format, three registers: OP rd, rs, rt (R103)
  | add (rd rs rt : Reg)
  | addu (rd rs rt : Reg)
  | sub (rd rs rt : Reg)
  | subu (rd rs rt : Reg)
  | and (rd rs rt : Reg)
  | or (rd rs rt : Reg)
  | xor (rd rs rt : Reg)
  | nor (rd rs rt : Reg)
  | slt (rd rs rt : Reg)
  | sltu (rd rs rt : Reg)
  -- shift by a register: srlv rd, rt, rs (R154)
  | srlv (rd rt rs : Reg)
  -- shift by a constant: OP rd, rt, shamt (R93, R150)
  | sll (rd rt : Reg) (shamt : Shamt)
  | srl (rd rt : Reg) (shamt : Shamt)
  | sra (rd rt : Reg) (shamt : Shamt)
  -- multiply and divide: OP rs, rt (R160)
  | mult (rs rt : Reg)
  | multu (rs rt : Reg)
  | div (rs rt : Reg)
  | divu (rs rt : Reg)
  | mfhi (rd : Reg)
  | mflo (rd : Reg)
  | jr (rs : Reg)
  -- mfc0 rt, rd: `rt` is the general register, `rd` the coprocessor-0 register number (R109)
  | mfc0 (rt rd : Reg)
  -- I format: OP rt, rs, imm (R103)
  | addi (rt rs : Reg) (imm : Imm)
  | addiu (rt rs : Reg) (imm : Imm)
  | slti (rt rs : Reg) (imm : Imm)
  | sltiu (rt rs : Reg) (imm : Imm)
  | andi (rt rs : Reg) (imm : Imm)
  | ori (rt rs : Reg) (imm : Imm)
  -- branches: OP rs, rt, label (R103)
  | beq (rs rt : Reg) (imm : Imm)
  | bne (rs rt : Reg) (imm : Imm)
  -- loads and stores: OP rt, imm(rs) (R103, R105)
  | lw (rt : Reg) (imm : Imm) (rs : Reg)
  | lbu (rt : Reg) (imm : Imm) (rs : Reg)
  | lhu (rt : Reg) (imm : Imm) (rs : Reg)
  | sb (rt : Reg) (imm : Imm) (rs : Reg)
  | sh (rt : Reg) (imm : Imm) (rs : Reg)
  | sw (rt : Reg) (imm : Imm) (rs : Reg)
  | lui (rt : Reg) (imm : Imm)
  -- J format: OP label (R103)
  | j (target : Addr26)
  | jal (target : Addr26)
  deriving DecidableEq, Repr

end Sys2Proof
end

