-- ==== Sys2Proof/Decode.lean ====
section
/-! DEFINITION. Decoding and encoding of instruction words (30_encoding.md): the fields of a word, the decoder of R110,
which is total and rejects by name, and the encoder, written from the formats of R91, R95, R96 and the maps of R107 to
R109. -/

namespace Sys2Proof

/-- Why a word is a reserved encoding (R112), or why there is no word at all. -/
inductive DecodeError where
  /-- An opcode without a row in R107. -/
  | reservedOpcode (op : BitVec 6)
  /-- Opcode 0 with a funct without a row in R108. -/
  | reservedFunct (funct : BitVec 6)
  /-- Opcode 0x10 with `rs` or bits 10:0 not zero (R109). -/
  | reservedCop0
  /-- A field the row fixes at zero is not zero, under `STRICT_ZERO_FIELDS` (R113). -/
  | nonzeroField
  /-- Fewer than the four bytes every instruction has (R90). -/
  | truncated
  deriving DecidableEq, Repr

/-! The fields of a word (R91, R95, R96). -/

def fieldOp (w : Word) : BitVec 6 := w.extractLsb' 26 6
def fieldRs (w : Word) : Reg := w.extractLsb' 21 5
def fieldRt (w : Word) : Reg := w.extractLsb' 16 5
def fieldRd (w : Word) : Reg := w.extractLsb' 11 5
def fieldShamt (w : Word) : Shamt := w.extractLsb' 6 5
def fieldFunct (w : Word) : BitVec 6 := w.extractLsb' 0 6
def fieldImm (w : Word) : Imm := w.extractLsb' 0 16
def fieldAddr26 (w : Word) : Addr26 := w.extractLsb' 0 26

/-- Accepts the instruction unless fields must be zero and are not (R113, D16). -/
def guardZero (strict fieldsZero : Bool) (i : Instr) : Except DecodeError Instr :=
  if strict && !fieldsZero then .error .nonzeroField else .ok i

/-- Words of opcode 0x00, by funct (R108), with the zero fields of R103. -/
def decodeFunct (strict : Bool) (w : Word) : Except DecodeError Instr :=
  let rs := fieldRs w
  let rt := fieldRt w
  let rd := fieldRd w
  let sh := fieldShamt w
  match fieldFunct w with
  | 0x00#6 => guardZero strict (rs == 0) (.sll rd rt sh)
  | 0x02#6 => guardZero strict (rs == 0) (.srl rd rt sh)
  | 0x03#6 => guardZero strict (rs == 0) (.sra rd rt sh)
  | 0x06#6 => guardZero strict (sh == 0) (.srlv rd rt rs)
  | 0x08#6 => guardZero strict (rt == 0 && rd == 0 && sh == 0) (.jr rs)
  | 0x10#6 => guardZero strict (rs == 0 && rt == 0 && sh == 0) (.mfhi rd)
  | 0x12#6 => guardZero strict (rs == 0 && rt == 0 && sh == 0) (.mflo rd)
  | 0x18#6 => guardZero strict (rd == 0 && sh == 0) (.mult rs rt)
  | 0x19#6 => guardZero strict (rd == 0 && sh == 0) (.multu rs rt)
  | 0x1A#6 => guardZero strict (rd == 0 && sh == 0) (.div rs rt)
  | 0x1B#6 => guardZero strict (rd == 0 && sh == 0) (.divu rs rt)
  | 0x20#6 => guardZero strict (sh == 0) (.add rd rs rt)
  | 0x21#6 => guardZero strict (sh == 0) (.addu rd rs rt)
  | 0x22#6 => guardZero strict (sh == 0) (.sub rd rs rt)
  | 0x23#6 => guardZero strict (sh == 0) (.subu rd rs rt)
  | 0x24#6 => guardZero strict (sh == 0) (.and rd rs rt)
  | 0x25#6 => guardZero strict (sh == 0) (.or rd rs rt)
  | 0x26#6 => guardZero strict (sh == 0) (.xor rd rs rt)
  | 0x27#6 => guardZero strict (sh == 0) (.nor rd rs rt)
  | 0x2A#6 => guardZero strict (sh == 0) (.slt rd rs rt)
  | 0x2B#6 => guardZero strict (sh == 0) (.sltu rd rs rt)
  | fn => .error (.reservedFunct fn)

/-- `decode(w)` of R110: the instruction of a word, or the reason why it is reserved. `strict` is
`STRICT_ZERO_FIELDS`; the fixed fields of opcode 0x10 are checked in either case (R109, R110). -/
def decode (strict : Bool) (w : Word) : Except DecodeError Instr :=
  let rs := fieldRs w
  let rt := fieldRt w
  let imm := fieldImm w
  match fieldOp w with
  | 0x00#6 => decodeFunct strict w
  | 0x02#6 => .ok (.j (fieldAddr26 w))
  | 0x03#6 => .ok (.jal (fieldAddr26 w))
  | 0x04#6 => .ok (.beq rs rt imm)
  | 0x05#6 => .ok (.bne rs rt imm)
  | 0x08#6 => .ok (.addi rt rs imm)
  | 0x09#6 => .ok (.addiu rt rs imm)
  | 0x0A#6 => .ok (.slti rt rs imm)
  | 0x0B#6 => .ok (.sltiu rt rs imm)
  | 0x0C#6 => .ok (.andi rt rs imm)
  | 0x0D#6 => .ok (.ori rt rs imm)
  | 0x0F#6 => guardZero strict (rs == 0) (.lui rt imm)
  | 0x10#6 =>
    if rs == 0 && w.extractLsb' 0 11 == 0 then .ok (.mfc0 rt (fieldRd w)) else .error .reservedCop0
  | 0x23#6 => .ok (.lw rt imm rs)
  | 0x24#6 => .ok (.lbu rt imm rs)
  | 0x25#6 => .ok (.lhu rt imm rs)
  | 0x28#6 => .ok (.sb rt imm rs)
  | 0x29#6 => .ok (.sh rt imm rs)
  | 0x2B#6 => .ok (.sw rt imm rs)
  | op => .error (.reservedOpcode op)

/-! The three formats as words (R91, R95, R96). -/

def rWord (rs rt rd : Reg) (sh : Shamt) (funct : BitVec 6) : Word :=
  (0x00#6) ++ rs ++ rt ++ rd ++ sh ++ funct

def iWord (op : BitVec 6) (rs rt : Reg) (imm : Imm) : Word :=
  op ++ rs ++ rt ++ imm

def jWord (op : BitVec 6) (target : Addr26) : Word :=
  op ++ target

/-- The word of an instruction, its unused fields zero (R103, R107 to R109, R113). -/
def encode : Instr → Word
  | .add rd rs rt => rWord rs rt rd 0 0x20
  | .addu rd rs rt => rWord rs rt rd 0 0x21
  | .sub rd rs rt => rWord rs rt rd 0 0x22
  | .subu rd rs rt => rWord rs rt rd 0 0x23
  | .and rd rs rt => rWord rs rt rd 0 0x24
  | .or rd rs rt => rWord rs rt rd 0 0x25
  | .xor rd rs rt => rWord rs rt rd 0 0x26
  | .nor rd rs rt => rWord rs rt rd 0 0x27
  | .slt rd rs rt => rWord rs rt rd 0 0x2A
  | .sltu rd rs rt => rWord rs rt rd 0 0x2B
  | .srlv rd rt rs => rWord rs rt rd 0 0x06
  | .sll rd rt sh => rWord 0 rt rd sh 0x00
  | .srl rd rt sh => rWord 0 rt rd sh 0x02
  | .sra rd rt sh => rWord 0 rt rd sh 0x03
  | .mult rs rt => rWord rs rt 0 0 0x18
  | .multu rs rt => rWord rs rt 0 0 0x19
  | .div rs rt => rWord rs rt 0 0 0x1A
  | .divu rs rt => rWord rs rt 0 0 0x1B
  | .mfhi rd => rWord 0 0 rd 0 0x10
  | .mflo rd => rWord 0 0 rd 0 0x12
  | .jr rs => rWord rs 0 0 0 0x08
  | .mfc0 rt rd => iWord 0x10 0 rt (rd ++ 0#11)
  | .addi rt rs imm => iWord 0x08 rs rt imm
  | .addiu rt rs imm => iWord 0x09 rs rt imm
  | .slti rt rs imm => iWord 0x0A rs rt imm
  | .sltiu rt rs imm => iWord 0x0B rs rt imm
  | .andi rt rs imm => iWord 0x0C rs rt imm
  | .ori rt rs imm => iWord 0x0D rs rt imm
  | .beq rs rt imm => iWord 0x04 rs rt imm
  | .bne rs rt imm => iWord 0x05 rs rt imm
  | .lw rt imm rs => iWord 0x23 rs rt imm
  | .lbu rt imm rs => iWord 0x24 rs rt imm
  | .lhu rt imm rs => iWord 0x25 rs rt imm
  | .sb rt imm rs => iWord 0x28 rs rt imm
  | .sh rt imm rs => iWord 0x29 rs rt imm
  | .sw rt imm rs => iWord 0x2B rs rt imm
  | .lui rt imm => iWord 0x0F 0 rt imm
  | .j target => jWord 0x02 target
  | .jal target => jWord 0x03 target

/-! The table of match and mask (R110), kept apart from the decoder so that the two can be compared. -/

/-- A row of opcode_table.json: `w` is the row's instruction iff `w & mask = pattern` (R110). -/
structure OpcodeRow where
  mnemonic : String
  pattern : Word
  mask : Word
  deriving DecidableEq, Repr

/-- Rows of the R format. -/
def opcodeRowsR : List OpcodeRow :=
  [⟨"add", 0x00000020, 0xFC0007FF⟩, ⟨"addu", 0x00000021, 0xFC0007FF⟩, ⟨"sub", 0x00000022, 0xFC0007FF⟩,
   ⟨"subu", 0x00000023, 0xFC0007FF⟩, ⟨"and", 0x00000024, 0xFC0007FF⟩, ⟨"or", 0x00000025, 0xFC0007FF⟩,
   ⟨"xor", 0x00000026, 0xFC0007FF⟩, ⟨"nor", 0x00000027, 0xFC0007FF⟩, ⟨"slt", 0x0000002A, 0xFC0007FF⟩,
   ⟨"sltu", 0x0000002B, 0xFC0007FF⟩, ⟨"srlv", 0x00000006, 0xFC0007FF⟩, ⟨"sll", 0x00000000, 0xFFE0003F⟩,
   ⟨"srl", 0x00000002, 0xFFE0003F⟩, ⟨"sra", 0x00000003, 0xFFE0003F⟩, ⟨"mult", 0x00000018, 0xFC00FFFF⟩,
   ⟨"multu", 0x00000019, 0xFC00FFFF⟩, ⟨"div", 0x0000001A, 0xFC00FFFF⟩, ⟨"divu", 0x0000001B, 0xFC00FFFF⟩,
   ⟨"mfhi", 0x00000010, 0xFFFF07FF⟩, ⟨"mflo", 0x00000012, 0xFFFF07FF⟩, ⟨"jr", 0x00000008, 0xFC1FFFFF⟩,
   ⟨"mfc0", 0x40000000, 0xFFE007FF⟩]

/-- Rows of the I and J formats. -/
def opcodeRowsIJ : List OpcodeRow :=
  [⟨"addi", 0x20000000, 0xFC000000⟩, ⟨"addiu", 0x24000000, 0xFC000000⟩, ⟨"slti", 0x28000000, 0xFC000000⟩,
   ⟨"sltiu", 0x2C000000, 0xFC000000⟩, ⟨"andi", 0x30000000, 0xFC000000⟩, ⟨"ori", 0x34000000, 0xFC000000⟩,
   ⟨"beq", 0x10000000, 0xFC000000⟩, ⟨"bne", 0x14000000, 0xFC000000⟩, ⟨"lw", 0x8C000000, 0xFC000000⟩,
   ⟨"lbu", 0x90000000, 0xFC000000⟩, ⟨"lhu", 0x94000000, 0xFC000000⟩, ⟨"sb", 0xA0000000, 0xFC000000⟩,
   ⟨"sh", 0xA4000000, 0xFC000000⟩, ⟨"sw", 0xAC000000, 0xFC000000⟩, ⟨"lui", 0x3C000000, 0xFFE00000⟩,
   ⟨"j", 0x08000000, 0xFC000000⟩, ⟨"jal", 0x0C000000, 0xFC000000⟩]

/-- The whole table (R111). -/
def opcodeRows : List OpcodeRow := opcodeRowsR ++ opcodeRowsIJ

/-- Whether the word is the row's instruction (R110). -/
def OpcodeRow.hits (r : OpcodeRow) (w : Word) : Bool := w &&& r.mask == r.pattern

/-- The mnemonic of an instruction, as the table spells it. -/
def mnemonicOf : Instr → String
  | .add _ _ _ => "add"
  | .addu _ _ _ => "addu"
  | .sub _ _ _ => "sub"
  | .subu _ _ _ => "subu"
  | .and _ _ _ => "and"
  | .or _ _ _ => "or"
  | .xor _ _ _ => "xor"
  | .nor _ _ _ => "nor"
  | .slt _ _ _ => "slt"
  | .sltu _ _ _ => "sltu"
  | .srlv _ _ _ => "srlv"
  | .sll _ _ _ => "sll"
  | .srl _ _ _ => "srl"
  | .sra _ _ _ => "sra"
  | .mult _ _ => "mult"
  | .multu _ _ => "multu"
  | .div _ _ => "div"
  | .divu _ _ => "divu"
  | .mfhi _ => "mfhi"
  | .mflo _ => "mflo"
  | .jr _ => "jr"
  | .mfc0 _ _ => "mfc0"
  | .addi _ _ _ => "addi"
  | .addiu _ _ _ => "addiu"
  | .slti _ _ _ => "slti"
  | .sltiu _ _ _ => "sltiu"
  | .andi _ _ _ => "andi"
  | .ori _ _ _ => "ori"
  | .beq _ _ _ => "beq"
  | .bne _ _ _ => "bne"
  | .lw _ _ _ => "lw"
  | .lbu _ _ _ => "lbu"
  | .lhu _ _ _ => "lhu"
  | .sb _ _ _ => "sb"
  | .sh _ _ _ => "sh"
  | .sw _ _ _ => "sw"
  | .lui _ _ => "lui"
  | .j _ => "j"
  | .jal _ => "jal"

/-! Instruction words as bytes (R63 to R65: one byte order for data and fetch). -/

/-- The four bytes of a word, lowest address first (R65). -/
def wordBytes : Endian → Word → List Byte
  | .little, w => [w.extractLsb' 0 8, w.extractLsb' 8 8, w.extractLsb' 16 8, w.extractLsb' 24 8]
  | .big, w => [w.extractLsb' 24 8, w.extractLsb' 16 8, w.extractLsb' 8 8, w.extractLsb' 0 8]

/-- The word four bytes hold, the first at the lowest address (R64). -/
def bytesWord : Endian → Byte → Byte → Byte → Byte → Word
  | .little, b0, b1, b2, b3 => b3 ++ b2 ++ b1 ++ b0
  | .big, b0, b1, b2, b3 => b0 ++ b1 ++ b2 ++ b3

/-- The decoder on bytes: the first instruction and the bytes after it, or why there is none. -/
def decodeBytes (e : Endian) (strict : Bool) : List Byte → Except DecodeError (Instr × List Byte)
  | b0 :: b1 :: b2 :: b3 :: rest =>
    match decode strict (bytesWord e b0 b1 b2 b3) with
    | .ok i => .ok (i, rest)
    | .error err => .error err
  | _ => .error .truncated

/-- The instruction the decoder reads from the `nbits`-bit word `w`, its bits above `nbits` zero, laid out in memory
in the byte order of `State.reset` (log 2) with `STRICT_ZERO_FIELDS` true. -/
def decodeTableWord (nbits w : Nat) : Option Instr :=
  match decodeBytes .little true (wordBytes .little (BitVec.ofNat 32 (w % 2 ^ nbits))) with
  | .ok (i, _) => some i
  | .error _ => none

end Sys2Proof
end

