-- ==== Sys2Proof/Machine/Operands.lean ====
section
/-! DEFINITION. Every operand form: immediates (R98), targets (R99, R100), shift amounts (R101), access widths, alignment
and byte lanes (R63 to R70). -/

namespace Sys2Proof.Machine

/-- `sext_32(imm)` (R8, R98). -/
def sext (imm : Imm) : Word := imm.signExtend 32

/-- `zext_32(imm)` (R8, R98). -/
def zext (imm : Imm) : Word := imm.setWidth 32

/-- `imm ++ 0^16`, the operand of lui (R98). -/
def upper (imm : Imm) : Word := imm ++ 0#16

/-- The target of a taken branch at `pc` (R99). -/
def branchTarget (pc : Word) (imm : Imm) : Word := pc + 4 + (sext imm <<< 2)

/-- The target of a j or jal at `pc` (R100): the top four bits of the jump's own address. -/
def jumpTarget (pc : Word) (target : Addr26) : Word := pc.extractLsb' 28 4 ++ target ++ 0#2

/-- The amount of a shift by a register: its low five bits (R101, R154). -/
def shiftAmount (v : Word) : Shamt := v.extractLsb' 0 5

/-- The widths a data access or a fetch moves (R70). -/
inductive Width where
  | byte
  | half
  | word
  deriving DecidableEq, Repr

/-- The number of bytes of an access (R70). -/
def widthBytes : Width → Nat
  | .byte => 1
  | .half => 2
  | .word => 4

/-- Whether the address is a multiple of the access's size (R67). -/
def aligned (w : Width) (a : Word) : Bool := a.toNat % widthBytes w == 0

/-- Which byte of an n-byte value, counted from its least significant one, stands at `addr + k` (R64, R65). The byte
order is decided here and nowhere else. -/
def lane (e : Endian) (n k : Nat) : Nat :=
  match e with
  | .little => k
  | .big => n - 1 - k

/-- The byte of a value at a lane: `v[8l+7 : 8l]` (R65). -/
def laneByte (v : Word) (l : Nat) : Byte := v.extractLsb' (8 * l) 8

/-- A byte moved up to a lane. -/
def laneWord (b : Byte) (l : Nat) : Word := b.setWidth 32 <<< (8 * l)

end Sys2Proof.Machine
end

