-- ==== Sys2Proof/Machine/Memory.lean ====
section
/-! DEFINITION. Memory as data (R44, R60): a list of cells in one canonical form, addresses strictly rising, and no cell
equal to what an unlisted address reads as. -/

namespace Sys2Proof.Machine

/-- A map from 32-bit byte addresses to bytes (R44). -/
abbrev Memory := List Host.Cell

/-- What an address that no cell lists reads as: no value (R46, D24, U4; log 9). -/
def unlistedByte : Option Byte := none

/-- The byte at an address, or no value. -/
def Memory.read : Memory → Nat → Option Byte
  | [], _ => unlistedByte
  | (k, b) :: m, a => if a = k then some b else Memory.read m a

/-- Puts a byte at an address, the cells still in rising order. No byte equals what an unlisted address reads as, so a
write always leaves a cell. -/
def Memory.write : Memory → Nat → Byte → Memory
  | [], a, v => [(a, v)]
  | (k, b) :: m, a, v =>
    if a < k then (a, v) :: (k, b) :: m
    else if a = k then (a, v) :: m
    else (k, b) :: Memory.write m a v

/-- Every address of the list is above `lo`, and the addresses rise strictly. -/
def Memory.risesFrom : Nat → Memory → Bool
  | _, [] => true
  | lo, (k, _) :: m => decide (lo ≤ k) && Memory.risesFrom (k + 1) m

/-- The canonical form: strictly rising addresses, all of 32 bits (R60), no cell equal to an unlisted one. -/
def Memory.wf (m : Memory) : Bool :=
  Memory.risesFrom 0 m && m.all fun c => decide (c.1 < 0x100000000) && (some c.2 != unlistedByte)

/-- Puts the cells of a launch image into a memory, in the order of the list (R46, R242). -/
def Memory.place (m : Memory) : List (Word × Byte) → Memory
  | [] => m
  | (a, b) :: rest => Memory.place (Memory.write m a.toNat b) rest

end Sys2Proof.Machine
end

