-- ==== Sys2Proof/Machine/Platform.lean ====
section
/-! DEFINITION. Membership in `MEM_DOMAIN` and `TEXT` (R66, R74), and the values of the open parameters at
`State.reset` (R6, logs 2 to 7 and 12). -/

namespace Sys2Proof.Machine

/-- Whether a region holds the address. -/
def regionHas (r : Region) (a : Nat) : Bool :=
  decide (r.base ≤ a) && decide (a < r.base + r.size)

/-- Whether one of the regions holds the address. -/
def regionsHave (rs : List Region) (a : Nat) : Bool :=
  rs.any fun r => regionHas r a

/-- Whether the byte address is populated (R66). -/
def inDomain (c : Config) (a : Word) : Bool :=
  regionsHave c.memDomain a.toNat

/-- Whether the byte lies in a word of `TEXT`: `TEXT` is a set of word addresses (R6, R74), and a byte belongs to the
word at the multiple of 4 at or below it (R61). -/
def inText (c : Config) (a : Word) : Bool :=
  regionsHave c.text (a.toNat / 4 * 4)

/-- Whether all of `a .. a+n-1` are populated (R66, R171). -/
def spanInDomain (c : Config) (a : Word) (n : Nat) : Bool :=
  (List.range n).all fun k => inDomain c (a + BitVec.ofNat 32 k)

/-- Whether any of `a .. a+n-1` lies in `TEXT` (R74, R171). -/
def spanMeetsText (c : Config) (a : Word) (n : Nat) : Bool :=
  (List.range n).any fun k => inText c (a + BitVec.ofNat 32 k)

/-- `RESET_PC` at `State.reset`. DESIGN CHOICE (log 5): the parameter is open; R46 names this as the R3000's value. -/
def defaultResetPc : Word := 0xBFC00000

/-- The parameters at `State.reset`. DESIGN CHOICE for each that the spec leaves open: `ENDIAN` (log 2),
`MEM_DOMAIN` (log 3), `TEXT` (log 4), `RESET_PC` (log 5), `END_PC` (log 6), `EXC_VECTOR` (log 7). `TRAP_MODE` and
`STRICT_ZERO_FIELDS` are the spec's decided defaults (R6, D9, D16). -/
def defaultConfig : Config where
  endian := .little
  memDomain := [⟨0, 0x100000000⟩]
  text := [⟨defaultResetPc.toNat, 4⟩]
  resetPc := defaultResetPc
  endPc := none
  trapMode := .halt
  excVector := 0x80000080
  strictZeroFields := true

end Sys2Proof.Machine
end

