-- ==== Sys2Proof/Machine/State.lean ====
section
/-! DEFINITION. The state of the machine (10_state.md), the reasons a step can stop, and the state after reset (R46,
R240). -/

namespace Sys2Proof.Machine

/-- The exceptions of the machine with what `raise` passes (R11, R211). -/
inductive Trap where
  /-- The exact result of add, sub or addi is outside 32 bits (R130). -/
  | overflow
  /-- A misaligned lw or lhu (R67). -/
  | addressErrorLoad (addr : Word)
  /-- A misaligned sw or sh (R67). -/
  | addressErrorStore (addr : Word)
  /-- A misaligned pc at the fetch (R69). -/
  | addressErrorFetch (addr : Word)
  /-- A reserved encoding (R112). -/
  | reservedInstruction (word : Word)
  deriving DecidableEq, Repr

/-- The mark `Fault(E, A, info)` that trap entry leaves (R214, R215). -/
structure FaultMark where
  trap : Trap
  epc : Word
  deriving DecidableEq, Repr

/-- Why the machine stops without a next state. -/
inductive Fault where
  /-- Raised by `step` in a state that a trap has entered under `TRAP_MODE = halt`: no further step exists (R214).
  Safe: the spec's own end. -/
  | halted (mark : FaultMark)
  /-- Answered by `step` where `pc = END_PC`: the run is over, successfully (R13, R243). Safe: the spec's own end. -/
  | runOver
  /-- Raised by a fetch, load or store of which a byte lies outside `MEM_DOMAIN`, with the access's address: stuck
  (R66, R171). Safe: the hardware would do something the spec does not give. -/
  | outsideMemory (addr : Word)
  /-- Raised by a fetch or load of a byte that nothing has written and no launch image placed (R46, D24, U4). Safe: the
  hardware would read some byte. -/
  | unwrittenByte (addr : Word)
  deriving DecidableEq, Repr

/-- Why the machine gives a step no meaning. -/
inductive Refusal where
  /-- Raised by `exec` for an instruction that has no meaning yet; no arm uses it. Safe. -/
  | notModelled (mnemonic : String)
  /-- Raised by the fetch of a word outside `TEXT` (R69, R74). Safe: the spec gives the step no meaning. -/
  | fetchOutsideText (addr : Word)
  /-- Raised by a store of which a byte lies in `TEXT` (R74, R171). Safe: the spec gives the step no meaning. -/
  | storeIntoText (addr : Word)
  deriving DecidableEq, Repr

/-- Everything the spec gives the machine (R30 to R46), the parameters of the run (R6) and the count of draws. -/
structure State where
  /-- `x[0]` .. `x[31]` (R30). Slot 0 is neither read nor written: `State.readReg` and `State.writeReg` hold R31. -/
  regs : Vector Word 32
  /-- The address of the instruction being executed (R35). -/
  pc : Word
  /-- `HI` (R38). -/
  hi : Word
  /-- `LO` (R38). -/
  lo : Word
  /-- `EPC`, coprocessor-0 register 14 (R40). -/
  epc : Word
  /-- `CauseCode` (R41). -/
  causeCode : BitVec 5
  /-- `BadVAddr` (R41). -/
  badVAddr : Word
  /-- The mark of the latest trap (R214, R215). -/
  faultMark : Option FaultMark
  /-- Memory (R44). -/
  mem : Memory
  /-- The model's own: how many draws have been taken (R12; log 10). -/
  draws : Nat
  /-- The parameters of the run (R6; log 1). -/
  cfg : Config
  deriving DecidableEq, Repr

/-- The outcome of a step or of an instruction. -/
abbrev Result := Host.Outcome State Fault Refusal

/-- Puts launch values into registers; register 0 takes none (R31, R242). -/
def placeRegs (regs : Vector Word 32) : List (Reg × Word) → Vector Word 32
  | [] => regs
  | (r, v) :: rest => placeRegs (if r = 0#5 then regs else regs.set r.toNat v r.isLt) rest

/-- What the launch of a run gives (R242): the parameters, the start pc, the bytes of the launch image, and the values of
whichever registers the program may read before writing them. HI, LO and EPC are the ones beside the general registers that
an instruction can read (R38, R40); none means that the launch gives the register no value. -/
structure Launch where
  cfg : Config
  start : Word
  image : List (Word × Byte)
  regs : List (Reg × Word)
  hi : Option Word
  lo : Option Word
  epc : Option Word
  deriving DecidableEq, Repr

/-- What a register holds to which the launch gives no value, the spec leaving it unspecified (R46): zero. DESIGN CHOICE
(log 8). -/
def unwrittenRegister : Word := 0

/-- The launch state of a run (R242). CauseCode and BadVAddr, which no instruction reads (R41), are zero as well: DESIGN
CHOICE (log 8). -/
def State.launch (l : Launch) : State where
  regs := placeRegs (Vector.replicate 32 unwrittenRegister) l.regs
  pc := l.start
  hi := l.hi.getD unwrittenRegister
  lo := l.lo.getD unwrittenRegister
  epc := l.epc.getD unwrittenRegister
  causeCode := 0
  badVAddr := unwrittenRegister
  faultMark := none
  mem := Memory.place [] l.image
  draws := 0
  cfg := l.cfg

/-- The launch at reset (R46, R240): the pc at `RESET_PC`, nothing placed in memory or registers. -/
def resetLaunch : Launch where
  cfg := defaultConfig
  start := defaultConfig.resetPc
  image := []
  regs := []
  hi := none
  lo := none
  epc := none

/-- The machine right after reset (R46, R240), with the parameters of `defaultConfig`. -/
def State.reset : State := State.launch resetLaunch

end Sys2Proof.Machine
end

