-- ==== Sys2Proof/Machine/Ops.lean ====
section
/-! DEFINITION. The named operations over registers and memory, taking an exception (R214) and the way back (R216),
and the fetch (R69). -/

namespace Sys2Proof.Machine

/-! ## Registers -/

/-- `x[r]`: register 0 reads as zero (R9, R31). -/
def State.readReg (s : State) (r : Reg) : Word :=
  if r = 0#5 then 0 else s.regs[r.toNat]'(r.isLt)

/-- `x[r] <- v`: a write to register 0 is discarded (R9, R31). -/
def State.writeReg (s : State) (r : Reg) (v : Word) : State :=
  if r = 0#5 then s else { s with regs := s.regs.set r.toNat v r.isLt }

/-- `(HI, LO) <- (h, l)` (R38, R160). -/
def State.writeHiLo (s : State) (h l : Word) : State := { s with hi := h, lo := l }

/-- `pc <- pc + 4`, modulo 2^32 (R36, R37). -/
def State.advance (s : State) : State := { s with pc := s.pc + 4 }

/-- `pc <- t` (R9, R185). -/
def State.jump (s : State) (t : Word) : State := { s with pc := t }

/-- The value of the next `any32()` (R12). -/
def State.nextDraw (s : State) : Word := Config.any32 s.draws

/-- The state after that draw. -/
def State.drawn (s : State) : State := { s with draws := s.draws + 1 }

/-- The effect of an instruction whose one result is the register `r` (R36). -/
def State.finishReg (s : State) (r : Reg) (v : Word) : State := (s.writeReg r v).advance

/-! ## Exceptions -/

/-- The code of an exception (R211). -/
def trapCode : Trap → BitVec 5
  | .overflow => 12
  | .addressErrorLoad _ => 4
  | .addressErrorStore _ => 5
  | .addressErrorFetch _ => 4
  | .reservedInstruction _ => 10

/-- The address an address error records (R211, R214). -/
def trapAddress : Trap → Option Word
  | .overflow => none
  | .addressErrorLoad a => some a
  | .addressErrorStore a => some a
  | .addressErrorFetch a => some a
  | .reservedInstruction _ => none

/-- Where the pc stands after trap entry: `EXC_VECTOR` in mode vector (R215); in mode halt it has not advanced (R213,
R214). -/
def trapPc (s : State) : Word :=
  match s.cfg.trapMode with
  | .halt => s.pc
  | .vector => s.cfg.excVector

/-- The state after trap entry (R214): EPC, CauseCode, for an address error BadVAddr, the fault mark and the pc;
nothing else changes. -/
def trapState (t : Trap) (s : State) : State :=
  { s with
    epc := s.pc
    causeCode := trapCode t
    badVAddr := (trapAddress t).getD s.badVAddr
    faultMark := some ⟨t, s.pc⟩
    pc := trapPc s }

/-- `raise E(info)`: taking an exception (R11, R214). The way back is jr to the EPC a handler has read by mfc0: there
is no return instruction, and nothing beside the pc is restored (R215, R216). -/
def raise (t : Trap) (s : State) : Result := .next (trapState t s)

/-- The outcome of an access: a value, or why there is none. -/
inductive Access (α : Type) where
  | ok (a : α)
  | trap (t : Trap)
  | fault (f : Fault)
  | refused (r : Refusal)

/-- Goes on with the value of an access, takes its exception, or stops with its reason. -/
def settle {α : Type} (x : Access α) (s : State) (k : α → Result) : Result :=
  match x with
  | .ok a => k a
  | .trap t => raise t s
  | .fault f => .fault f
  | .refused r => .refused r

/-! ## Memory -/

/-- The byte at an address, if it has one. -/
def State.byteAt (s : State) (a : Word) : Option Byte := Memory.read s.mem a.toNat

/-- The bytes `a .. a+k-1` of an n-byte access, put together in the byte order of the run (R64). -/
def readLanes (s : State) (n : Nat) (a : Word) : Nat → Access Word
  | 0 => .ok 0
  | k + 1 =>
    match readLanes s n a k with
    | .ok v =>
      match s.byteAt (a + BitVec.ofNat 32 k) with
      | some b => .ok (v ||| laneWord b (lane s.cfg.endian n k))
      | none => .fault (.unwrittenByte (a + BitVec.ofNat 32 k))
    | stop => stop

/-- `zext_32(MemRead(a, n))` (R64, R171). -/
def memRead (s : State) (w : Width) (a : Word) : Access Word :=
  readLanes s (widthBytes w) a (widthBytes w)

/-- The memory after the bytes `a .. a+k-1` of an n-byte value are written (R65). -/
def writeLanes (m : Memory) (e : Endian) (n : Nat) (a v : Word) : Nat → Memory
  | 0 => m
  | k + 1 =>
    Memory.write (writeLanes m e n a v k) (a + BitVec.ofNat 32 k).toNat (laneByte v (lane e n k))

/-- `MemWrite(a, n, v[8n-1:0])` (R65, R171). -/
def memWrite (s : State) (w : Width) (a v : Word) : State :=
  { s with mem := writeLanes s.mem s.cfg.endian (widthBytes w) a v (widthBytes w) }

/-- The effective address `x[rs] + sext_32(imm)`, modulo 2^32 (R68, R170). -/
def effectiveAddress (s : State) (rs : Reg) (imm : Imm) : Word := s.readReg rs + sext imm

/-- A load with its checks in the order of R171. -/
def loadAt (s : State) (w : Width) (a : Word) : Access Word :=
  if !aligned w a then .trap (.addressErrorLoad a)
  else if !spanInDomain s.cfg a (widthBytes w) then .fault (.outsideMemory a)
  else memRead s w a

/-- A store with its checks in the order of R171. -/
def storeAt (s : State) (w : Width) (a v : Word) : Access State :=
  if !aligned w a then .trap (.addressErrorStore a)
  else if spanMeetsText s.cfg a (widthBytes w) then .refused (.storeIntoText a)
  else if !spanInDomain s.cfg a (widthBytes w) then .fault (.outsideMemory a)
  else .ok (memWrite s w a v)

/-! ## Fetch -/

/-- `Fetch(pc)` with its checks in the order of R13 and R69. -/
def fetchWord (s : State) : Access Word :=
  if !aligned .word s.pc then .trap (.addressErrorFetch s.pc)
  else if !spanInDomain s.cfg s.pc 4 then .fault (.outsideMemory s.pc)
  else if !inText s.cfg s.pc then .refused (.fetchOutsideText s.pc)
  else memRead s .word s.pc

/-- The instruction of a fetched word, or the exception of a reserved encoding (R13, R110, R112). -/
def decodeFetched (s : State) (w : Word) : Access Instr :=
  match decode s.cfg.strictZeroFields w with
  | .ok i => .ok i
  | .error _ => .trap (.reservedInstruction w)

/-- Why no step exists, if none does: the machine has halted (R214), or the run is over (R243). -/
def stopped (s : State) : Option Fault :=
  match s.cfg.trapMode, s.faultMark with
  | .halt, some m => some (.halted m)
  | _, _ => if s.cfg.endPc = some s.pc then some .runOver else none

/-! ## Launch -/

/-- The bytes of a word at an address, placed from outside the machine (R46, R242). -/
def placeWord (s : State) (a w : Word) : State := memWrite s .word a w

/-- The parameters with whatever the fetch of the word at the aligned address `a` needs: the word populated (R66), in
`TEXT` (R74), and no end of the run there (R243). -/
def configForFetch (c : Config) (a : Word) : Config :=
  { c with
    memDomain := if spanInDomain c a 4 then c.memDomain else ⟨a.toNat, 4⟩ :: c.memDomain
    text := if inText c a then c.text else ⟨a.toNat, 4⟩ :: c.text
    endPc := if c.endPc = some a then none else c.endPc }

/-- The multiple of 4 at or below an address (R61). -/
def alignDown (a : Word) : Word := a &&& 0xFFFFFFFC

/-- A state made ready to fetch: its pc a multiple of 4, not halted, the word at the pc in `MEM_DOMAIN` and `TEXT`. -/
def readyToFetch (s : State) : State :=
  { s with
    pc := alignDown s.pc
    faultMark := match s.cfg.trapMode with
      | .halt => none
      | .vector => s.faultMark
    cfg := configForFetch s.cfg (alignDown s.pc) }

end Sys2Proof.Machine
end

