-- ==== Sys2Proof/Machine/Arithmetic.lean ====
section
/-! DEFINITION. add, addu, sub, subu, addi, addiu (40_arithmetic.md). -/

namespace Sys2Proof.Machine

/-- Writes an exact result that fits 32 bits, or raises Overflow with the destination unwritten (R130). -/
def writeExact (s : State) (r : Reg) (e : Int) : Result :=
  if fitsSigned e then .next (s.finishReg r (BitVec.ofInt 32 e)) else raise .overflow s

/-- add (R133). -/
def execAdd (rd rs rt : Reg) (s : State) : Result :=
  writeExact s rd (exactSum (s.readReg rs) (s.readReg rt))

/-- addu (R131, R134). -/
def execAddu (rd rs rt : Reg) (s : State) : Result :=
  .next (s.finishReg rd (s.readReg rs + s.readReg rt))

/-- sub (R135). -/
def execSub (rd rs rt : Reg) (s : State) : Result :=
  writeExact s rd (exactDifference (s.readReg rs) (s.readReg rt))

/-- subu (R131, R136). -/
def execSubu (rd rs rt : Reg) (s : State) : Result :=
  .next (s.finishReg rd (s.readReg rs - s.readReg rt))

/-- addi (R137). -/
def execAddi (rt rs : Reg) (imm : Imm) (s : State) : Result :=
  writeExact s rt (exactSum (s.readReg rs) (sext imm))

/-- addiu (R131, R138). -/
def execAddiu (rt rs : Reg) (imm : Imm) (s : State) : Result :=
  .next (s.finishReg rt (s.readReg rs + sext imm))

end Sys2Proof.Machine
end

