-- ==== Sys2Proof/Machine/Coprocessor0.lean ====
section
/-! DEFINITION. mfc0 (46_coprocessor0.md). -/

namespace Sys2Proof.Machine

/-- The number of EPC among the coprocessor-0 registers (R40, R200). -/
def epcNumber : Reg := 14

/-- mfc0: EPC for register 14 (R200), a draw for any other (R201, U3; log 11). -/
def execMfc0 (rt rd : Reg) (s : State) : Result :=
  if rd = epcNumber then .next (s.finishReg rt s.epc)
  else .next (s.drawn.finishReg rt s.nextDraw)

end Sys2Proof.Machine
end

