-- ==== Sys2Proof/Machine/DataTransfer.lean ====
section
/-! DEFINITION. lw, lbu, lhu, sw, sb, sh, lui (44_data_transfer.md). -/

namespace Sys2Proof.Machine

/-- The common sequence of a load (R171); the value is zero-extended, and the address comes from the old `x[rs]`. -/
def execLoad (w : Width) (rt : Reg) (imm : Imm) (rs : Reg) (s : State) : Result :=
  settle (loadAt s w (effectiveAddress s rs imm)) s fun v => .next (s.finishReg rt v)

/-- The common sequence of a store (R171); the low bytes of `x[rt]` are stored. -/
def execStore (w : Width) (rt : Reg) (imm : Imm) (rs : Reg) (s : State) : Result :=
  settle (storeAt s w (effectiveAddress s rs imm) (s.readReg rt)) s fun t => .next t.advance

/-- lw (R172). -/
def execLw (rt : Reg) (imm : Imm) (rs : Reg) (s : State) : Result := execLoad .word rt imm rs s

/-- lbu (R173). -/
def execLbu (rt : Reg) (imm : Imm) (rs : Reg) (s : State) : Result := execLoad .byte rt imm rs s

/-- lhu (R174). -/
def execLhu (rt : Reg) (imm : Imm) (rs : Reg) (s : State) : Result := execLoad .half rt imm rs s

/-- sw (R175). -/
def execSw (rt : Reg) (imm : Imm) (rs : Reg) (s : State) : Result := execStore .word rt imm rs s

/-- sb (R176). -/
def execSb (rt : Reg) (imm : Imm) (rs : Reg) (s : State) : Result := execStore .byte rt imm rs s

/-- sh (R177). -/
def execSh (rt : Reg) (imm : Imm) (rs : Reg) (s : State) : Result := execStore .half rt imm rs s

/-- lui (R178): no memory access. -/
def execLui (rt : Reg) (imm : Imm) (s : State) : Result := .next (s.finishReg rt (upper imm))

end Sys2Proof.Machine
end

