-- ==== Sys2Proof/Machine/Logical.lean ====
section
/-! DEFINITION. and, or, xor, nor, andi, ori (41_logical.md). -/

namespace Sys2Proof.Machine

/-- and (R141). -/
def execAnd (rd rs rt : Reg) (s : State) : Result :=
  .next (s.finishReg rd (s.readReg rs &&& s.readReg rt))

/-- or (R142). -/
def execOr (rd rs rt : Reg) (s : State) : Result :=
  .next (s.finishReg rd (s.readReg rs ||| s.readReg rt))

/-- xor (R143). -/
def execXor (rd rs rt : Reg) (s : State) : Result :=
  .next (s.finishReg rd (s.readReg rs ^^^ s.readReg rt))

/-- nor (R144). -/
def execNor (rd rs rt : Reg) (s : State) : Result :=
  .next (s.finishReg rd (~~~(s.readReg rs ||| s.readReg rt)))

/-- andi (R140, R145). -/
def execAndi (rt rs : Reg) (imm : Imm) (s : State) : Result :=
  .next (s.finishReg rt (s.readReg rs &&& zext imm))

/-- ori (R140, R146). -/
def execOri (rt rs : Reg) (imm : Imm) (s : State) : Result :=
  .next (s.finishReg rt (s.readReg rs ||| zext imm))

end Sys2Proof.Machine
end

