-- ==== Sys2Proof/Machine/MultiplyDivide.lean ====
section
/-! DEFINITION. mult, multu, div, divu, mfhi, mflo (43_multiply_divide.md). None of them raises an exception (R160). -/

namespace Sys2Proof.Machine

/-- The effect of an instruction whose results are HI and LO (R160). -/
def finishHiLo (s : State) (h l : Word) : Result := .next (s.writeHiLo h l).advance

/-- HI and LO from a product, modulo 2^64 (R161, R162). -/
def finishProduct (s : State) (p : BitVec 64) : Result :=
  finishHiLo s (p.extractLsb' 32 32) (p.extractLsb' 0 32)

/-- HI and LO each receive a fresh draw (R163, R164, U1, U2; log 11). -/
def finishDrawn (s : State) : Result :=
  finishHiLo s.drawn.drawn s.nextDraw s.drawn.nextDraw

/-- Whether the spec fixes no result of the signed division: the divisor is zero (U1), or the quotient 2^31 does not
fit (U2). -/
def signedDivisionOpen (a b : Word) : Bool := b == 0 || (a == 0x80000000 && b == 0xFFFFFFFF)

/-- mult (R161). -/
def execMult (rs rt : Reg) (s : State) : Result :=
  finishProduct s (BitVec.ofInt 64 ((s.readReg rs).toInt * (s.readReg rt).toInt))

/-- multu (R162). -/
def execMultu (rs rt : Reg) (s : State) : Result :=
  finishProduct s (BitVec.ofNat 64 ((s.readReg rs).toNat * (s.readReg rt).toNat))

/-- The truncated quotient to LO and its remainder to HI (R163). -/
def finishQuotient (s : State) (a b : Int) : Result :=
  finishHiLo s (BitVec.ofInt 32 (a - a.tdiv b * b)) (BitVec.ofInt 32 (a.tdiv b))

/-- div (R163). -/
def execDiv (rs rt : Reg) (s : State) : Result :=
  if signedDivisionOpen (s.readReg rs) (s.readReg rt) then finishDrawn s
  else finishQuotient s (s.readReg rs).toInt (s.readReg rt).toInt

/-- divu (R164). -/
def execDivu (rs rt : Reg) (s : State) : Result :=
  if s.readReg rt == 0 then finishDrawn s
  else
    finishHiLo s (BitVec.ofNat 32 ((s.readReg rs).toNat % (s.readReg rt).toNat))
      (BitVec.ofNat 32 ((s.readReg rs).toNat / (s.readReg rt).toNat))

/-- mfhi (R165). -/
def execMfhi (rd : Reg) (s : State) : Result := .next (s.finishReg rd s.hi)

/-- mflo (R166). -/
def execMflo (rd : Reg) (s : State) : Result := .next (s.finishReg rd s.lo)

end Sys2Proof.Machine
end

