-- ==== Sys2Proof/Machine/ProgramControl.lean ====
section
/-! DEFINITION. beq, bne, slt, slti, sltu, sltiu, j, jr, jal (45_program_control.md). There is no delay slot (R185). -/

namespace Sys2Proof.Machine

/-- Goes to the branch target or on to the next instruction (R99, R185). -/
def branchIf (taken : Bool) (imm : Imm) (s : State) : Result :=
  .next (if taken then s.jump (branchTarget s.pc imm) else s.advance)

/-- beq (R188). -/
def execBeq (rs rt : Reg) (imm : Imm) (s : State) : Result :=
  branchIf (s.readReg rs == s.readReg rt) imm s

/-- bne (R189). -/
def execBne (rs rt : Reg) (imm : Imm) (s : State) : Result :=
  branchIf (s.readReg rs != s.readReg rt) imm s

/-- slt (R190). -/
def execSlt (rd rs rt : Reg) (s : State) : Result :=
  .next (s.finishReg rd (truthWord (lessSigned (s.readReg rs) (s.readReg rt))))

/-- slti (R191). -/
def execSlti (rt rs : Reg) (imm : Imm) (s : State) : Result :=
  .next (s.finishReg rt (truthWord (lessSigned (s.readReg rs) (sext imm))))

/-- sltu (R192). -/
def execSltu (rd rs rt : Reg) (s : State) : Result :=
  .next (s.finishReg rd (truthWord (lessUnsigned (s.readReg rs) (s.readReg rt))))

/-- sltiu (R193): the immediate is sign-extended, then compared as a natural number. -/
def execSltiu (rt rs : Reg) (imm : Imm) (s : State) : Result :=
  .next (s.finishReg rt (truthWord (lessUnsigned (s.readReg rs) (sext imm))))

/-- j (R194). -/
def execJ (target : Addr26) (s : State) : Result := .next (s.jump (jumpTarget s.pc target))

/-- jr (R186, R195): the target is not checked here. -/
def execJr (rs : Reg) (s : State) : Result := .next (s.jump (s.readReg rs))

/-- jal (R196): the link is the address after the jal, the target's top bits those of the jal. -/
def execJal (target : Addr26) (s : State) : Result :=
  .next ((s.writeReg 31 (s.pc + 4)).jump (jumpTarget s.pc target))

end Sys2Proof.Machine
end

