-- ==== Sys2Proof/Machine/Shift.lean ====
section
/-! DEFINITION. sll, srl, sra, srlv (42_shift.md). The register shifted is the one in the rt field (R93, R150). -/

namespace Sys2Proof.Machine

/-- sll (R151). -/
def execSll (rd rt : Reg) (shamt : Shamt) (s : State) : Result :=
  .next (s.finishReg rd (s.readReg rt <<< shamt.toNat))

/-- srl (R152). -/
def execSrl (rd rt : Reg) (shamt : Shamt) (s : State) : Result :=
  .next (s.finishReg rd (s.readReg rt >>> shamt.toNat))

/-- sra (R153). -/
def execSra (rd rt : Reg) (shamt : Shamt) (s : State) : Result :=
  .next (s.finishReg rd ((s.readReg rt).sshiftRight shamt.toNat))

/-- srlv (R101, R154). -/
def execSrlv (rd rt rs : Reg) (s : State) : Result :=
  .next (s.finishReg rd (s.readReg rt >>> (shiftAmount (s.readReg rs)).toNat))

end Sys2Proof.Machine
end

