-- ==== Sys2Proof/Machine/Step.lean ====
section
/-! DEFINITION. One step of the machine (R13), and a state with a given instruction at its pc. -/

namespace Sys2Proof.Machine

/-- One step (R13): nothing where no step exists (R214, R243); else the fetch with its checks (R69), the decoding, which
raises ReservedInstruction for a reserved word (R112), and the instruction, whose meaning ends with its own pc (R36). -/
def step (s : State) : Host.Outcome State Fault Refusal :=
  match stopped s with
  | some f => .fault f
  | none =>
    settle (fetchWord s) s fun w =>
      settle (decodeFetched s w) s fun i => exec i s

/-- The state with the `nbits`-bit word `w`, its bits above `nbits` zero, stored at its pc, and whatever the fetch of
it needs: the pc a multiple of 4, the machine not halted, the word at the pc in `MEM_DOMAIN` and `TEXT`, and no end of
the run there (R13; log 15). -/
def State.withFetchWord (s : State) (nbits w : Nat) : State :=
  let r := readyToFetch s
  placeWord r r.pc (BitVec.ofNat 32 (w % 2 ^ nbits))

end Sys2Proof.Machine
end

