-- ==== Sys2Proof/WellFormed.lean ====
section
/-! DEFINITION. Well-formedness. An `Instr` needs no check: each operand is a bit vector of exactly the width its
field has (R91, R95, R96), so every term of `Instr` is well formed. The parameters of a run carry the conditions that
R6, R240 and R241 put on them. -/

namespace Sys2Proof

/-- An address that is a multiple of 4, as an instruction's must be (R62). -/
def wordAligned (a : Word) : Bool := a.toNat % 4 == 0

/-- A region of 32-bit byte addresses (R60). -/
def regionFits (r : Region) : Bool := decide (r.base + r.size ≤ 0x100000000)

/-- The conditions the spec puts on the parameters: `MEM_DOMAIN` and `TEXT` hold 32-bit addresses (R6, R60); `RESET_PC`
is a multiple of 4 and lies in `TEXT` (R240); `EXC_VECTOR` is a multiple of 4 (R6) and, in mode `vector`, lies in `TEXT`
(R241). -/
def Config.wf (c : Config) : Bool :=
  c.memDomain.all regionFits && c.text.all regionFits
    && wordAligned c.resetPc && Machine.inText c c.resetPc
    && wordAligned c.excVector
    && (match c.trapMode with
        | .halt => true
        | .vector => Machine.inText c c.excVector)

end Sys2Proof
end

