-- ==== Sys2Proof/Safety.lean ====
section
/-! DEFINITION. The terms in which claims are stated: what a state keeps, when a step exists, and what an instruction or
a trap changes and leaves alone. -/

namespace Sys2Proof.Machine

/-- What every step keeps: the memory in its canonical form (R44), and nothing stored for the hard-wired register 0
(R31). -/
structure State.Inv (s : State) : Prop where
  memoryCanonical : Memory.wf s.mem = true
  zeroSlot : s.regs[0] = 0

/-- A step exists: the machine has not halted in a trap (R214), and the run is not over (R243). -/
structure Running (s : State) : Prop where
  notHalted : s.cfg.trapMode = .halt → s.faultMark = none
  notOver : s.cfg.endPc ≠ some s.pc

/-- The coprocessor-0 state, the fault mark and the parameters are as before. -/
structure SameSystem (s t : State) : Prop where
  epc : t.epc = s.epc
  causeCode : t.causeCode = s.causeCode
  badVAddr : t.badVAddr = s.badVAddr
  faultMark : t.faultMark = s.faultMark
  cfg : t.cfg = s.cfg

/-- Every general register reads as before. -/
def SameRegisters (s t : State) : Prop := ∀ q : Reg, t.readReg q = s.readReg q

/-- Every byte of memory reads as before. -/
def SameMemory (s t : State) : Prop := ∀ a : Word, t.byteAt a = s.byteAt a

/-- `t` is `s` after `x[r] <- v` and nothing else but the pc: register 0 stays zero (R31), every other register, HI, LO,
the coprocessor-0 state and every byte of memory are as before, and `taken` draws have been taken (R12, log 10). -/
structure WroteRegister (s t : State) (r : Reg) (v : Word) (taken : Nat := 0) : Prop where
  written : t.readReg r = if r = 0#5 then 0 else v
  others : ∀ q : Reg, q ≠ r → t.readReg q = s.readReg q
  hi : t.hi = s.hi
  lo : t.lo = s.lo
  system : SameSystem s t
  memory : SameMemory s t
  draws : t.draws = s.draws + taken

/-- The instruction completes: its one result is `v` in the register `r`, the pc advances (R36), and no draw is
taken. -/
def CompletesWith (i : Instr) (s : State) (r : Reg) (v : Word) : Prop :=
  ∃ t, exec i s = .next t ∧ WroteRegister s t r v ∧ t.pc = s.pc + 4

/-- `t` is `s` after `HI <- h`, `LO <- l` and the advance of the pc, and nothing else, with `taken` draws taken
(R12, log 10). -/
structure WroteHiLo (s t : State) (h l : Word) (taken : Nat := 0) : Prop where
  hi : t.hi = h
  lo : t.lo = l
  pc : t.pc = s.pc + 4
  registers : SameRegisters s t
  system : SameSystem s t
  memory : SameMemory s t
  draws : t.draws = s.draws + taken

/-- `t` is `s` with the pc at `target` and nothing else changed. -/
structure WentTo (s t : State) (target : Word) : Prop where
  pc : t.pc = target
  registers : SameRegisters s t
  hi : t.hi = s.hi
  lo : t.lo = s.lo
  system : SameSystem s t
  memory : SameMemory s t
  draws : t.draws = s.draws

/-- `t` is `s` after the `n` bytes at `a` were stored and the pc advanced: every byte outside them reads as before, and
so does everything else. The stored bytes themselves are stated beside it. -/
structure StoredAt (s t : State) (a : Word) (n : Nat) : Prop where
  outside : ∀ b : Word, (∀ k < n, b ≠ a + BitVec.ofNat 32 k) → t.byteAt b = s.byteAt b
  pc : t.pc = s.pc + 4
  registers : SameRegisters s t
  hi : t.hi = s.hi
  lo : t.lo = s.lo
  system : SameSystem s t
  draws : t.draws = s.draws

/-- `t` is `s` after trap entry (R214) for the exception `e` with the code `code`; `bad` is what an address error
records. No register, HI, LO or byte of memory is changed (R213); the pc has not advanced under `TRAP_MODE = halt` and
stands at `EXC_VECTOR` under `vector`. -/
structure TrapEntered (s t : State) (e : Trap) (code : BitVec 5) (bad : Option Word) : Prop where
  epc : t.epc = s.pc
  causeCode : t.causeCode = code
  badVAddr : t.badVAddr = bad.getD s.badVAddr
  faultMark : t.faultMark = some ⟨e, s.pc⟩
  pcHalt : s.cfg.trapMode = .halt → t.pc = s.pc
  pcVector : s.cfg.trapMode = .vector → t.pc = s.cfg.excVector
  registers : SameRegisters s t
  hi : t.hi = s.hi
  lo : t.lo = s.lo
  memory : SameMemory s t
  cfg : t.cfg = s.cfg
  draws : t.draws = s.draws

/-- The instruction raises the exception. -/
def RaisesTrap (i : Instr) (s : State) (e : Trap) (code : BitVec 5) (bad : Option Word) : Prop :=
  ∃ t, exec i s = .next t ∧ TrapEntered s t e code bad

/-- An exact result is within 32 bits in two's complement (R130). -/
def FitsWord (e : Int) : Prop := -2147483648 ≤ e ∧ e ≤ 2147483647

/-- Every byte of `a .. a+n-1` is populated (R66). -/
def Populated (s : State) (a : Word) (n : Nat) : Prop := ∀ k < n, inDomain s.cfg (a + BitVec.ofNat 32 k) = true

/-- No byte of `a .. a+n-1` lies in `TEXT` (R74). -/
def ClearOfText (s : State) (a : Word) (n : Nat) : Prop := ∀ k < n, inText s.cfg (a + BitVec.ofNat 32 k) = false

/-- Four bytes stand at `a .. a+3`, lowest address first. -/
structure BytesAt (s : State) (a : Word) (b0 b1 b2 b3 : Byte) : Prop where
  byte0 : s.byteAt a = some b0
  byte1 : s.byteAt (a + 1) = some b1
  byte2 : s.byteAt (a + 2) = some b2
  byte3 : s.byteAt (a + 3) = some b3

/-- A step exists and its fetch gives the word `w` (R13, R69): the pc is a multiple of 4, populated and in `TEXT`, and
the four bytes there are `w` in the byte order of the run. -/
structure FetchesWord (s : State) (w : Word) : Prop where
  running : Running s
  pcAligned : s.pc.toNat % 4 = 0
  populated : Populated s s.pc 4
  text : inText s.cfg s.pc = true
  bytes : ∃ b0 b1 b2 b3, BytesAt s s.pc b0 b1 b2 b3
    ∧ w = match s.cfg.endian with
      | .little => b3 ++ b2 ++ b1 ++ b0
      | .big => b0 ++ b1 ++ b2 ++ b3

/-- A data access as the instruction names it: its size in bytes, and the offset and base of its address (R170). -/
structure DataAccess where
  size : Nat
  offset : Imm
  base : Reg
  deriving DecidableEq, Repr

/-- The one data access of an instruction, if it has one (R70). -/
def dataAccess : Instr → Option DataAccess
  | .lw _ imm rs => some ⟨4, imm, rs⟩
  | .lbu _ imm rs => some ⟨1, imm, rs⟩
  | .lhu _ imm rs => some ⟨2, imm, rs⟩
  | .sw _ imm rs => some ⟨4, imm, rs⟩
  | .sb _ imm rs => some ⟨1, imm, rs⟩
  | .sh _ imm rs => some ⟨2, imm, rs⟩
  | _ => none

/-- The address of a data access (R68, R170). -/
def DataAccess.address (d : DataAccess) (s : State) : Word := effectiveAddress s d.base d.offset

/-- The instructions that write memory (R70). -/
def storesMemory : Instr → Bool
  | .sw _ _ _ | .sb _ _ _ | .sh _ _ _ => true
  | _ => false

/-- The instructions that write HI and LO (R38). -/
def writesHiLo : Instr → Bool
  | .mult _ _ | .multu _ _ | .div _ _ | .divu _ _ => true
  | _ => false

/-- The instructions that read HI or LO (R38). -/
def readsHiLo : Instr → Bool
  | .mfhi _ | .mflo _ => true
  | _ => false

/-- The one instruction whose target need not be a multiple of 4 (R37). -/
def isJr : Instr → Bool
  | .jr _ => true
  | _ => false

/-- The outcome with its next state changed. -/
def mapNext (f : State → State) : Result → Result
  | .next t => .next (f t)
  | .fault r => .fault r
  | .refused r => .refused r

end Sys2Proof.Machine
end

