-- ==== Sys2Proof/Certificates/Slice0/Obligations.lean ====
section
/-! DEFINITION. The statements about the model, each from a rule of spec/ it names. -/

open Sys2Proof Sys2Proof.Machine

/-! ## Encoding (30_encoding.md) -/

/-- Decoding the word of an instruction gives the instruction back, with `STRICT_ZERO_FIELDS` either way (R91, R95, R96,
R103, R110). -/
def Obligations.DecodeOfEncodeIsIdentity : Prop :=
  ∀ (strict : Bool) (i : Instr), decode strict (encode i) = .ok i

/-- Under `STRICT_ZERO_FIELDS` an instruction has one word only: the one with its unused fields zero (R110, R113). -/
def Obligations.StrictDecodeAcceptsOnlyEncodings : Prop :=
  ∀ (w : Word) (i : Instr), decode true w = .ok i → encode i = w

/-- The decoder gives the same decision as the match and mask pairs of opcode_table.json (R110). -/
def Obligations.DecoderAgreesWithOpcodeTable : Prop :=
  ∀ (w : Word) (m : String),
    (∃ i, decode true w = .ok i ∧ mnemonicOf i = m) ↔ (∃ r ∈ opcodeRows, r.hits w = true ∧ r.mnemonic = m)

/-- At most one row of the table matches a word (R110). -/
def Obligations.OpcodeRowsAreDisjoint : Prop :=
  ∀ (w : Word), ∀ r₁ ∈ opcodeRows, ∀ r₂ ∈ opcodeRows, r₁.hits w = true → r₂.hits w = true → r₁ = r₂

/-- With `STRICT_ZERO_FIELDS` false every word decodes that decodes when it is true, and, but for opcode 0x10, a word that
has the opcode, the funct (opcode 0) and the operand bits of such a word decodes to the same instruction, whatever its
unused fields hold (R109, R113). -/
def Obligations.UnusedFieldsIgnoredWhenNotStrict : Prop :=
  (∀ (w : Word) (i : Instr), decode true w = .ok i → decode false w = .ok i)
    ∧ ∀ (w w' : Word) (i : Instr), ∀ r ∈ opcodeRows, decode true w = .ok i → r.mnemonic = mnemonicOf i →
      fieldOp w ≠ 0x10 → fieldOp w' = fieldOp w → (fieldOp w = 0 → fieldFunct w' = fieldFunct w) →
      w' &&& ~~~r.mask = w &&& ~~~r.mask → decode false w' = .ok i

/-- Words of the spec decode to the instructions they stand for (add R133; sll and srl R150; srlv
R154; mult R161; lw R172; sw R175; beq R188; j R194; jr R195; mfc0 R200; lui R178). -/
def Obligations.WordsOfTheSpecDecode : Prop :=
  decode true 0x00430820 = .ok (.add 1 2 3) ∧ decode true 0x00020A80 = .ok (.sll 1 2 10)
    ∧ decode true 0x00020A82 = .ok (.srl 1 2 10) ∧ decode true 0x01220806 = .ok (.srlv 1 2 9)
    ∧ decode true 0x00430018 = .ok (.mult 2 3) ∧ decode true 0x8C410064 = .ok (.lw 1 100 2)
    ∧ decode true 0xAC410064 = .ok (.sw 1 100 2) ∧ decode true 0x10220019 = .ok (.beq 1 2 25)
    ∧ decode true 0x080009C4 = .ok (.j 0x9C4) ∧ decode true 0x03E00008 = .ok (.jr 31)
    ∧ decode true 0x40017000 = .ok (.mfc0 1 14) ∧ decode true 0x3C010064 = .ok (.lui 1 100)

/-- The all-zero word is a shift of register 0 by nothing, which changes only the pc (R114). -/
def Obligations.ZeroWordChangesOnlyThePc : Prop :=
  (∀ strict : Bool, decode strict 0 = .ok (.sll 0 0 0))
    ∧ ∀ s : State, ∃ t, exec (.sll 0 0 0) s = .next t ∧ WentTo s t (s.pc + 4)

/-! ## The step (00_scope.md, 20_memory.md, 60_exceptions.md, 70_reset_and_hazards.md) -/

/-- Where the word at the pc decodes to an instruction, a step is exactly that instruction's meaning: it adds nothing
around it (R13). -/
def Obligations.StepRunsDecodedInstruction : Prop :=
  ∀ (s : State) (w : Word) (i : Instr), FetchesWord s w → decode s.cfg.strictZeroFields w = .ok i → step s = exec i s

/-- A reserved encoding raises ReservedInstruction and has no other effect (R112, R211, R214). That the word stands in the
fault mark is the model's choice (log 18). -/
def Obligations.ReservedEncodingTraps : Prop :=
  ∀ (s : State) (w : Word) (err : DecodeError), FetchesWord s w → decode s.cfg.strictZeroFields w = .error err →
    ∃ t, step s = .next t ∧ TrapEntered s t (.reservedInstruction w) 10 none

/-- A misaligned pc raises AddressErrorFetch at the fetch, and EPC holds the misaligned pc (R37, R69). -/
def Obligations.MisalignedFetchTraps : Prop :=
  ∀ s : State, Running s → s.pc.toNat % 4 ≠ 0 →
    ∃ t, step s = .next t ∧ TrapEntered s t (.addressErrorFetch s.pc) 4 (some s.pc)

/-- An aligned fetch outside `MEM_DOMAIN` is stuck, and one inside it but outside `TEXT` is refused, in that order
(R66, R69, R74). Inside both, a fetch of a byte nothing has written faults and names the lowest such byte: that such a byte
has no value is R46 and U4 as log 9 takes them. -/
def Obligations.FetchStopsOutsideMemoryAndText : Prop :=
  ∀ s : State, Running s → s.pc.toNat % 4 = 0 →
    (¬ Populated s s.pc 4 → step s = .fault (.outsideMemory s.pc))
      ∧ (Populated s s.pc 4 → inText s.cfg s.pc = false → step s = .refused (.fetchOutsideText s.pc))
      ∧ ∀ k < 4, Populated s s.pc 4 → inText s.cfg s.pc = true → s.byteAt (s.pc + BitVec.ofNat 32 k) = none →
        (∀ j < k, s.byteAt (s.pc + BitVec.ofNat 32 j) ≠ none) →
        step s = .fault (.unwrittenByte (s.pc + BitVec.ofNat 32 k))

/-- No step exists after a trap under `TRAP_MODE = halt` (R214); otherwise the run is over where the pc is `END_PC`,
whatever stands there (R13, R243). -/
def Obligations.NoStepAfterHaltOrAtEnd : Prop :=
  (∀ (s : State) (m : FaultMark), s.cfg.trapMode = .halt → s.faultMark = some m → step s = .fault (.halted m))
    ∧ ∀ s : State, (s.cfg.trapMode = .halt → s.faultMark = none) → s.cfg.endPc = some s.pc → step s = .fault .runOver

/-- Trap entry, for each exception: EPC, CauseCode by the table of R211, BadVAddr for the address errors, the mark, the pc;
and under `TRAP_MODE = halt` no further step exists (R211, R214). -/
def Obligations.TrapEntryRecordsTheException : Prop :=
  ∀ (s : State) (e : Trap), ∃ t, raise e s = .next t
    ∧ (match e with
      | .overflow => TrapEntered s t e 12 none
      | .addressErrorLoad a => TrapEntered s t e 4 (some a)
      | .addressErrorStore a => TrapEntered s t e 5 (some a)
      | .addressErrorFetch a => TrapEntered s t e 4 (some a)
      | .reservedInstruction _ => TrapEntered s t e 10 none)
    ∧ (s.cfg.trapMode = .halt → step t = .fault (.halted ⟨e, s.pc⟩))

/-- The model's own launch of one word (log 15): the next step runs exactly the placed instruction. -/
def Obligations.PlacedWordIsRunNext : Prop :=
  ∀ (s : State) (w : Nat) (i : Instr), decode s.cfg.strictZeroFields (BitVec.ofNat 32 w) = .ok i →
    step (s.withFetchWord 32 w) = exec i (s.withFetchWord 32 w)

/-! ## Reset (R46, R240) -/

/-- The state after reset. That the unspecified registers are zero, the value of `RESET_PC` and the parameters are the
model's choices (logs 2 to 8 and 12). -/
def Obligations.ResetState : Prop :=
  (∀ r : Reg, State.reset.readReg r = 0) ∧ State.reset.pc = 0xBFC00000 ∧ State.reset.hi = 0 ∧ State.reset.lo = 0
    ∧ State.reset.epc = 0 ∧ State.reset.causeCode = 0 ∧ State.reset.badVAddr = 0 ∧ State.reset.faultMark = none
    ∧ State.reset.cfg.trapMode = .halt ∧ State.reset.cfg.strictZeroFields = true ∧ State.reset.cfg.wf = true
    ∧ ∀ a : Word, State.reset.byteAt a = none

/-- The state after reset meets the invariant. -/
def Obligations.ResetMeetsInvariant : Prop := State.reset.Inv

/-- So does every launch state, whatever its parameters, its start, its image and its registers, HI, LO and EPC among
them (R242). -/
def Obligations.LaunchMeetsInvariant : Prop := ∀ l : Launch, (State.launch l).Inv

/-! ## The whole machine -/

/-- Every step keeps the memory canonical and nothing stored for register 0 (R31, R44). -/
def Obligations.StepKeepsInvariant : Prop :=
  ∀ s t : State, s.Inv → step s = .next t → t.Inv

/-- No step changes a parameter of the run, the byte order among them (R6, R63). -/
def Obligations.StepKeepsParameters : Prop :=
  ∀ s t : State, step s = .next t → t.cfg = s.cfg

/-- No step changes a byte of the program, so each fetch in `TEXT` sees the launch image, nor a byte outside `MEM_DOMAIN`
(R66, R74). -/
def Obligations.StepKeepsTextAndUnpopulatedBytes : Prop :=
  ∀ (s t : State) (a : Word), step s = .next t → (inText s.cfg a = true ∨ inDomain s.cfg a = false) →
    t.byteAt a = s.byteAt a

/-- Memory is written by sw, sb and sh alone (R70). -/
def Obligations.OnlyStoresWriteMemory : Prop :=
  ∀ (i : Instr) (s t : State), storesMemory i = false → exec i s = .next t → SameMemory s t

/-- HI and LO are written by mult, multu, div and divu alone (R38). -/
def Obligations.OnlyMultiplyAndDivideWriteHiLo : Prop :=
  ∀ (i : Instr) (s t : State), writesHiLo i = false → exec i s = .next t → t.hi = s.hi ∧ t.lo = s.lo

/-- HI and LO are read by mfhi and mflo alone: for any other instruction the outcome is the same whatever they held,
but that an instruction that does not write them leaves them as they were (R38). -/
def Obligations.OnlyMovesReadHiLo : Prop :=
  ∀ (i : Instr) (s : State) (h l : Word), readsHiLo i = false →
    exec i { s with hi := h, lo := l }
      = mapNext (fun t => if writesHiLo i then t else { t with hi := h, lo := l }) (exec i s)

/-- No instruction can read CauseCode or BadVAddr: the outcome is the same whatever they held, but for themselves
(R41, R211). -/
def Obligations.NoInstructionReadsCauseOrBadVAddr : Prop :=
  ∀ (i : Instr) (s : State) (c : BitVec 5) (b : Word),
    mapNext (fun t => { t with causeCode := 0, badVAddr := 0 }) (exec i { s with causeCode := c, badVAddr := b })
      = mapNext (fun t => { t with causeCode := 0, badVAddr := 0 }) (exec i s)

/-- Every next state either leaves EPC, CauseCode, BadVAddr and the fault mark alone or is that of a trap entry, which
changes nothing else but the pc: EPC, CauseCode and BadVAddr are written by trap entry only, and exceptions are precise
(R40, R41, R213, R214). -/
def Obligations.StepCompletesOrTrapsPrecisely : Prop :=
  ∀ s t : State, step s = .next t → SameSystem s t ∨ ∃ e, TrapEntered s t e (trapCode e) (trapAddress e)

/-- Only jr can leave the pc misaligned (R37). -/
def Obligations.OnlyJrMisalignsThePc : Prop :=
  ∀ (i : Instr) (s t : State), isJr i = false → s.pc.toNat % 4 = 0 →
    (s.cfg.trapMode = .vector → s.cfg.excVector.toNat % 4 = 0) → exec i s = .next t → t.pc.toNat % 4 = 0

/-- An instruction changes at most one general register (R34). -/
def Obligations.AtMostOneRegisterChanges : Prop :=
  ∀ (i : Instr) (s t : State), exec i s = .next t → ∃ r : Reg, ∀ q : Reg, q ≠ r → t.readReg q = s.readReg q

/-- An instruction without a data access always has a next state. One that faults has an aligned access: either a byte
of it is outside `MEM_DOMAIN` (and, for a store, none is in `TEXT`), and the fault names the access's address, or it is a
populated load and the fault names a byte of it that nothing has written. One that is refused is a store of which an
aligned access has a byte in `TEXT`, and the refusal names its address (R66, R74, R171; the unwritten byte: log 9; the
names and the addresses they carry: log 16). -/
def Obligations.OnlyMemoryAccessesStop : Prop :=
  (∀ (i : Instr) (s : State), dataAccess i = none → ∃ t, exec i s = .next t)
    ∧ (∀ (i : Instr) (s : State) (f : Fault), exec i s = .fault f →
        ∃ d, dataAccess i = some d ∧ (d.address s).toNat % d.size = 0
          ∧ ((f = .outsideMemory (d.address s) ∧ ¬ Populated s (d.address s) d.size
              ∧ (storesMemory i = true → ClearOfText s (d.address s) d.size))
            ∨ (storesMemory i = false ∧ Populated s (d.address s) d.size
              ∧ ∃ k < d.size, s.byteAt (d.address s + BitVec.ofNat 32 k) = none
                ∧ f = .unwrittenByte (d.address s + BitVec.ofNat 32 k))))
    ∧ (∀ (i : Instr) (s : State) (r : Refusal), exec i s = .refused r →
        ∃ d, dataAccess i = some d ∧ (d.address s).toNat % d.size = 0 ∧ storesMemory i = true
          ∧ ¬ ClearOfText s (d.address s) d.size ∧ r = .storeIntoText (d.address s))

/-- Register 0 reads as zero whatever is written to it; any other register reads as what was last written to it, and a
write leaves every other register alone (R9, R31). -/
def Obligations.RegisterFileLaws : Prop :=
  ∀ (s : State) (r q : Reg) (v : Word), s.readReg 0 = 0 ∧ (s.writeReg 0 v) = s
    ∧ (r ≠ 0 → (s.writeReg r v).readReg r = v) ∧ (q ≠ r → (s.writeReg r v).readReg q = s.readReg q)

/-! ## Arithmetic (40_arithmetic.md) -/

/-- add, sub and addi complete with the exact result where it fits 32 bits, and raise Overflow with the destination
unwritten where it does not (R130, R133, R135, R137). -/
def Obligations.SignedArithmeticCompletesOrOverflows : Prop :=
  ∀ (s : State) (rd rs rt : Reg) (imm : Imm),
    (FitsWord ((s.readReg rs).toInt + (s.readReg rt).toInt) →
        CompletesWith (.add rd rs rt) s rd (BitVec.ofInt 32 ((s.readReg rs).toInt + (s.readReg rt).toInt)))
      ∧ (¬ FitsWord ((s.readReg rs).toInt + (s.readReg rt).toInt) → RaisesTrap (.add rd rs rt) s .overflow 12 none)
      ∧ (FitsWord ((s.readReg rs).toInt - (s.readReg rt).toInt) →
        CompletesWith (.sub rd rs rt) s rd (BitVec.ofInt 32 ((s.readReg rs).toInt - (s.readReg rt).toInt)))
      ∧ (¬ FitsWord ((s.readReg rs).toInt - (s.readReg rt).toInt) → RaisesTrap (.sub rd rs rt) s .overflow 12 none)
      ∧ (FitsWord ((s.readReg rs).toInt + imm.toInt) →
        CompletesWith (.addi rt rs imm) s rt (BitVec.ofInt 32 ((s.readReg rs).toInt + imm.toInt)))
      ∧ (¬ FitsWord ((s.readReg rs).toInt + imm.toInt) → RaisesTrap (.addi rt rs imm) s .overflow 12 none)

/-- The bit-level test of overflow: an addition overflows iff its operands have one sign and the wrapped sum the other; a
subtraction iff its operands differ in sign and the wrapped difference differs from the first (R130). -/
def Obligations.OverflowIsTheBitLevelTest : Prop :=
  ∀ (s : State) (rd rs rt : Reg),
    (((s.readReg rs).msb = (s.readReg rt).msb ∧ (s.readReg rs + s.readReg rt).msb ≠ (s.readReg rs).msb →
        RaisesTrap (.add rd rs rt) s .overflow 12 none)
      ∧ (¬ ((s.readReg rs).msb = (s.readReg rt).msb ∧ (s.readReg rs + s.readReg rt).msb ≠ (s.readReg rs).msb) →
        CompletesWith (.add rd rs rt) s rd (s.readReg rs + s.readReg rt)))
    ∧ (((s.readReg rs).msb ≠ (s.readReg rt).msb ∧ (s.readReg rs - s.readReg rt).msb ≠ (s.readReg rs).msb →
        RaisesTrap (.sub rd rs rt) s .overflow 12 none)
      ∧ (¬ ((s.readReg rs).msb ≠ (s.readReg rt).msb ∧ (s.readReg rs - s.readReg rt).msb ≠ (s.readReg rs).msb) →
        CompletesWith (.sub rd rs rt) s rd (s.readReg rs - s.readReg rt)))

/-- Where add, sub and addi do not trap, addu, subu and addiu have the same outcome (R131). -/
def Obligations.UnsignedFormsAgreeWhereNoOverflow : Prop :=
  ∀ (s : State) (rd rs rt : Reg) (imm : Imm),
    (FitsWord ((s.readReg rs).toInt + (s.readReg rt).toInt) → exec (.add rd rs rt) s = exec (.addu rd rs rt) s)
      ∧ (FitsWord ((s.readReg rs).toInt - (s.readReg rt).toInt) → exec (.sub rd rs rt) s = exec (.subu rd rs rt) s)
      ∧ (FitsWord ((s.readReg rs).toInt + imm.toInt) → exec (.addi rt rs imm) s = exec (.addiu rt rs imm) s)

/-- addu, subu and addiu never raise: they complete modulo 2^32, the immediate of addiu sign-extended (R134, R136, R138). -/
def Obligations.UnsignedArithmeticWraps : Prop :=
  ∀ (s : State) (rd rs rt : Reg) (imm : Imm),
    CompletesWith (.addu rd rs rt) s rd (BitVec.ofNat 32 ((s.readReg rs).toNat + (s.readReg rt).toNat))
      ∧ CompletesWith (.subu rd rs rt) s rd
          (BitVec.ofInt 32 (((s.readReg rs).toNat : Int) - ((s.readReg rt).toNat : Int)))
      ∧ CompletesWith (.addiu rt rs imm) s rt (BitVec.ofInt 32 ((s.readReg rs).toInt + imm.toInt))

/-! ## Logical (41_logical.md) -/

/-- Each bit of the result is the operation on the bits of the operands, the immediate zero-extended (R141 to R146). -/
def Obligations.LogicalOperationsBitByBit : Prop :=
  ∀ (s : State) (rd rs rt : Reg) (imm : Imm),
    (∃ v : Word, CompletesWith (.and rd rs rt) s rd v
        ∧ ∀ k < 32, v.getLsbD k = ((s.readReg rs).getLsbD k && (s.readReg rt).getLsbD k))
      ∧ (∃ v : Word, CompletesWith (.or rd rs rt) s rd v
        ∧ ∀ k < 32, v.getLsbD k = ((s.readReg rs).getLsbD k || (s.readReg rt).getLsbD k))
      ∧ (∃ v : Word, CompletesWith (.xor rd rs rt) s rd v
        ∧ ∀ k < 32, v.getLsbD k = ((s.readReg rs).getLsbD k ^^ (s.readReg rt).getLsbD k))
      ∧ (∃ v : Word, CompletesWith (.nor rd rs rt) s rd v
        ∧ ∀ k < 32, v.getLsbD k = !((s.readReg rs).getLsbD k || (s.readReg rt).getLsbD k))
      ∧ (∃ v : Word, CompletesWith (.andi rt rs imm) s rt v
        ∧ ∀ k < 32, v.getLsbD k = ((s.readReg rs).getLsbD k && (decide (k < 16) && imm.getLsbD k)))
      ∧ (∃ v : Word, CompletesWith (.ori rt rs imm) s rt v
        ∧ ∀ k < 32, v.getLsbD k = ((s.readReg rs).getLsbD k || (decide (k < 16) && imm.getLsbD k)))

/-! ## Shifts (42_shift.md) -/

/-- Bit by bit: sll fills with zeros from below, srl with zeros from above, sra with copies of bit 31 (R151 to R153). -/
def Obligations.ConstantShiftsBitByBit : Prop :=
  ∀ (s : State) (rd rt : Reg) (shamt : Shamt),
    (∃ v : Word, CompletesWith (.sll rd rt shamt) s rd v
        ∧ ∀ k < 32, v.getLsbD k = (decide (shamt.toNat ≤ k) && (s.readReg rt).getLsbD (k - shamt.toNat)))
      ∧ (∃ v : Word, CompletesWith (.srl rd rt shamt) s rd v
        ∧ ∀ k < 32, v.getLsbD k = (decide (k + shamt.toNat < 32) && (s.readReg rt).getLsbD (k + shamt.toNat)))
      ∧ (∃ v : Word, CompletesWith (.sra rd rt shamt) s rd v
        ∧ ∀ k < 32, v.getLsbD k
            = if k + shamt.toNat < 32 then (s.readReg rt).getLsbD (k + shamt.toNat) else (s.readReg rt).getLsbD 31)

/-- sll by k multiplies by 2^k modulo 2^32, srl divides the natural number by 2^k, and sra the two's-complement integer,
rounding toward minus infinity (R151 to R153). -/
def Obligations.ConstantShiftsAreArithmetic : Prop :=
  ∀ (s : State) (rd rt : Reg) (shamt : Shamt),
    CompletesWith (.sll rd rt shamt) s rd (BitVec.ofNat 32 ((s.readReg rt).toNat * 2 ^ shamt.toNat))
      ∧ CompletesWith (.srl rd rt shamt) s rd (BitVec.ofNat 32 ((s.readReg rt).toNat / 2 ^ shamt.toNat))
      ∧ CompletesWith (.sra rd rt shamt) s rd (BitVec.ofInt 32 (Int.fdiv (s.readReg rt).toInt (2 ^ shamt.toNat)))

/-- srlv shifts by the low five bits of its amount register, whatever the others hold (R154). -/
def Obligations.SrlvShiftsByLowFiveBits : Prop :=
  ∀ (s : State) (rd rt rs : Reg),
    CompletesWith (.srlv rd rt rs) s rd
      (BitVec.ofNat 32 ((s.readReg rt).toNat / 2 ^ ((s.readReg rs).toNat % 32)))

/-! ## Multiply and divide (43_multiply_divide.md) -/

/-- HI and LO hold the exact 64-bit product, of the operands as integers or as natural numbers (R161, R162). -/
def Obligations.MultiplyGivesExactProduct : Prop :=
  ∀ (s : State) (rs rt : Reg),
    (∃ t h l, exec (.mult rs rt) s = .next t ∧ WroteHiLo s t h l
        ∧ (h ++ l : BitVec 64).toInt = (s.readReg rs).toInt * (s.readReg rt).toInt)
      ∧ (∃ t h l, exec (.multu rs rt) s = .next t ∧ WroteHiLo s t h l
        ∧ (h ++ l : BitVec 64).toNat = (s.readReg rs).toNat * (s.readReg rt).toNat)

/-- Where the spec fixes the result, div leaves the quotient rounded toward zero in LO and the remainder, of the dividend's
sign or zero and smaller than the divisor, in HI; divu the same on natural numbers (R163, R164). -/
def Obligations.DivideGivesQuotientAndRemainder : Prop :=
  ∀ (s : State) (rs rt : Reg), s.readReg rt ≠ 0 →
    (¬ (s.readReg rs = 0x80000000 ∧ s.readReg rt = 0xFFFFFFFF) →
      ∃ t h l, exec (.div rs rt) s = .next t ∧ WroteHiLo s t h l
        ∧ (s.readReg rs).toInt = l.toInt * (s.readReg rt).toInt + h.toInt
        ∧ h.toInt.natAbs < (s.readReg rt).toInt.natAbs
        ∧ (h.toInt = 0 ∨ (h.toInt < 0 ↔ (s.readReg rs).toInt < 0)))
      ∧ ∃ t h l, exec (.divu rs rt) s = .next t ∧ WroteHiLo s t h l
        ∧ (s.readReg rs).toNat = l.toNat * (s.readReg rt).toNat + h.toNat ∧ h.toNat < (s.readReg rt).toNat

/-- Where the spec leaves the result open, div and divu complete with a fresh draw in HI and another in LO, and raise
nothing. That the draws are numbered by a counter is the model's choice (logs 10 and 11). -/
def Obligations.OpenDivisionsLeaveDraws : Prop :=
  ∀ (s : State) (rs rt : Reg),
    (s.readReg rt = 0 ∨ (s.readReg rs = 0x80000000 ∧ s.readReg rt = 0xFFFFFFFF) →
        ∃ t, exec (.div rs rt) s = .next t
          ∧ WroteHiLo s t (Config.any32 s.draws) (Config.any32 (s.draws + 1)) (taken := 2))
      ∧ (s.readReg rt = 0 →
        ∃ t, exec (.divu rs rt) s = .next t
          ∧ WroteHiLo s t (Config.any32 s.draws) (Config.any32 (s.draws + 1)) (taken := 2))

/-- mfhi and mflo copy HI and LO, which keep their values (R165, R166). -/
def Obligations.MovesFromHiLo : Prop :=
  ∀ (s : State) (rd : Reg), CompletesWith (.mfhi rd) s rd s.hi ∧ CompletesWith (.mflo rd) s rd s.lo

/-- A product is there for the very next instruction, and LO alone is the wrapped 32-bit product of either multiply
(R160, R161, R246). -/
def Obligations.WrappedProductThroughMflo : Prop :=
  ∀ (s : State) (rs rt rd : Reg),
    (∃ t, exec (.mult rs rt) s = .next t ∧ CompletesWith (.mflo rd) t rd (s.readReg rs * s.readReg rt))
      ∧ ∃ t, exec (.multu rs rt) s = .next t ∧ CompletesWith (.mflo rd) t rd (s.readReg rs * s.readReg rt)

/-! ## Data transfer (44_data_transfer.md) -/

/-- The effective address is the base plus the sign-extended offset, modulo 2^32 (R68, R170). -/
def Obligations.EffectiveAddressWraps : Prop :=
  ∀ (s : State) (rs : Reg) (imm : Imm),
    effectiveAddress s rs imm = BitVec.ofInt 32 (((s.readReg rs).toNat : Int) + imm.toInt)

/-- lw raises AddressErrorLoad at an address that is no multiple of 4; otherwise it loads the four bytes in the byte order of
the run (R64, R172). -/
def Obligations.LoadWordLoadsOrTraps : Prop :=
  ∀ (s : State) (rt : Reg) (imm : Imm) (rs : Reg),
    ((effectiveAddress s rs imm).toNat % 4 ≠ 0 →
        RaisesTrap (.lw rt imm rs) s (.addressErrorLoad (effectiveAddress s rs imm)) 4
          (some (effectiveAddress s rs imm)))
      ∧ ∀ b0 b1 b2 b3 : Byte, (effectiveAddress s rs imm).toNat % 4 = 0 → Populated s (effectiveAddress s rs imm) 4 →
        BytesAt s (effectiveAddress s rs imm) b0 b1 b2 b3 →
        CompletesWith (.lw rt imm rs) s rt (match s.cfg.endian with
          | .little => b3 ++ b2 ++ b1 ++ b0
          | .big => b0 ++ b1 ++ b2 ++ b3)

/-- lhu raises AddressErrorLoad at an odd address; otherwise it loads the two bytes in the byte order of the run,
zero-extended (R64, R174). -/
def Obligations.LoadHalfwordLoadsOrTraps : Prop :=
  ∀ (s : State) (rt : Reg) (imm : Imm) (rs : Reg),
    ((effectiveAddress s rs imm).toNat % 2 ≠ 0 →
        RaisesTrap (.lhu rt imm rs) s (.addressErrorLoad (effectiveAddress s rs imm)) 4
          (some (effectiveAddress s rs imm)))
      ∧ ∀ b0 b1 : Byte, (effectiveAddress s rs imm).toNat % 2 = 0 → Populated s (effectiveAddress s rs imm) 2 →
        s.byteAt (effectiveAddress s rs imm) = some b0 → s.byteAt (effectiveAddress s rs imm + 1) = some b1 →
        CompletesWith (.lhu rt imm rs) s rt (match s.cfg.endian with
          | .little => 0#16 ++ b1 ++ b0
          | .big => 0#16 ++ b0 ++ b1)

/-- lbu loads the byte at any address, zero-extended (R173). -/
def Obligations.LoadByteLoads : Prop :=
  ∀ (s : State) (rt : Reg) (imm : Imm) (rs : Reg) (b0 : Byte), Populated s (effectiveAddress s rs imm) 1 →
    s.byteAt (effectiveAddress s rs imm) = some b0 → CompletesWith (.lbu rt imm rs) s rt (0#24 ++ b0)

/-- Past the alignment check a load is stuck where a byte is outside `MEM_DOMAIN` (R66, R171), and faults at a byte nothing
has written (U4; that every such byte has no value is log 9). -/
def Obligations.LoadsStopWithoutMemory : Prop :=
  ∀ (s : State) (rt : Reg) (imm : Imm) (rs : Reg),
    ∀ p ∈ [(Instr.lw rt imm rs, 4), (Instr.lhu rt imm rs, 2), (Instr.lbu rt imm rs, 1)],
      (effectiveAddress s rs imm).toNat % p.2 = 0 →
      (¬ Populated s (effectiveAddress s rs imm) p.2 →
          exec p.1 s = .fault (.outsideMemory (effectiveAddress s rs imm)))
        ∧ (Populated s (effectiveAddress s rs imm) p.2 →
          (∃ k < p.2, s.byteAt (effectiveAddress s rs imm + BitVec.ofNat 32 k) = none) →
          ∃ k < p.2, s.byteAt (effectiveAddress s rs imm + BitVec.ofNat 32 k) = none
            ∧ exec p.1 s = .fault (.unwrittenByte (effectiveAddress s rs imm + BitVec.ofNat 32 k)))

/-- sw raises AddressErrorStore at an address that is no multiple of 4; a store into `TEXT` is refused; one outside
`MEM_DOMAIN` is stuck; otherwise exactly the four bytes at the address hold the register, in the byte order of the run
(R65, R74, R171, R175). -/
def Obligations.StoreWordStoresOrTraps : Prop :=
  ∀ (s : State) (rt : Reg) (imm : Imm) (rs : Reg),
    ((effectiveAddress s rs imm).toNat % 4 ≠ 0 →
        RaisesTrap (.sw rt imm rs) s (.addressErrorStore (effectiveAddress s rs imm)) 5
          (some (effectiveAddress s rs imm)))
      ∧ ((effectiveAddress s rs imm).toNat % 4 = 0 → ¬ ClearOfText s (effectiveAddress s rs imm) 4 →
        exec (.sw rt imm rs) s = .refused (.storeIntoText (effectiveAddress s rs imm)))
      ∧ ((effectiveAddress s rs imm).toNat % 4 = 0 → ClearOfText s (effectiveAddress s rs imm) 4 →
        ¬ Populated s (effectiveAddress s rs imm) 4 →
        exec (.sw rt imm rs) s = .fault (.outsideMemory (effectiveAddress s rs imm)))
      ∧ ((effectiveAddress s rs imm).toNat % 4 = 0 → ClearOfText s (effectiveAddress s rs imm) 4 →
        Populated s (effectiveAddress s rs imm) 4 →
        ∃ t, exec (.sw rt imm rs) s = .next t ∧ StoredAt s t (effectiveAddress s rs imm) 4
          ∧ ∀ k < 4, t.byteAt (effectiveAddress s rs imm + BitVec.ofNat 32 k)
            = some (match s.cfg.endian with
              | .little => (s.readReg rt).extractLsb' (8 * k) 8
              | .big => (s.readReg rt).extractLsb' (8 * (3 - k)) 8))

/-- sh: the same for an odd address and the two low bytes of the register (R65, R74, R171, R177). -/
def Obligations.StoreHalfwordStoresOrTraps : Prop :=
  ∀ (s : State) (rt : Reg) (imm : Imm) (rs : Reg),
    ((effectiveAddress s rs imm).toNat % 2 ≠ 0 →
        RaisesTrap (.sh rt imm rs) s (.addressErrorStore (effectiveAddress s rs imm)) 5
          (some (effectiveAddress s rs imm)))
      ∧ ((effectiveAddress s rs imm).toNat % 2 = 0 → ¬ ClearOfText s (effectiveAddress s rs imm) 2 →
        exec (.sh rt imm rs) s = .refused (.storeIntoText (effectiveAddress s rs imm)))
      ∧ ((effectiveAddress s rs imm).toNat % 2 = 0 → ClearOfText s (effectiveAddress s rs imm) 2 →
        ¬ Populated s (effectiveAddress s rs imm) 2 →
        exec (.sh rt imm rs) s = .fault (.outsideMemory (effectiveAddress s rs imm)))
      ∧ ((effectiveAddress s rs imm).toNat % 2 = 0 → ClearOfText s (effectiveAddress s rs imm) 2 →
        Populated s (effectiveAddress s rs imm) 2 →
        ∃ t, exec (.sh rt imm rs) s = .next t ∧ StoredAt s t (effectiveAddress s rs imm) 2
          ∧ ∀ k < 2, t.byteAt (effectiveAddress s rs imm + BitVec.ofNat 32 k)
            = some (match s.cfg.endian with
              | .little => (s.readReg rt).extractLsb' (8 * k) 8
              | .big => (s.readReg rt).extractLsb' (8 * (1 - k)) 8))

/-- sb: at any address, the low byte of the register (R74, R171, R176). -/
def Obligations.StoreByteStores : Prop :=
  ∀ (s : State) (rt : Reg) (imm : Imm) (rs : Reg),
    (¬ ClearOfText s (effectiveAddress s rs imm) 1 →
        exec (.sb rt imm rs) s = .refused (.storeIntoText (effectiveAddress s rs imm)))
      ∧ (ClearOfText s (effectiveAddress s rs imm) 1 → ¬ Populated s (effectiveAddress s rs imm) 1 →
        exec (.sb rt imm rs) s = .fault (.outsideMemory (effectiveAddress s rs imm)))
      ∧ (ClearOfText s (effectiveAddress s rs imm) 1 → Populated s (effectiveAddress s rs imm) 1 →
        ∃ t, exec (.sb rt imm rs) s = .next t ∧ StoredAt s t (effectiveAddress s rs imm) 1
          ∧ t.byteAt (effectiveAddress s rs imm) = some ((s.readReg rt).extractLsb' 0 8))

/-- A load straight after a store of the same width at the same address gives what was stored, in either byte order; the
narrow forms give the low bits, zero-extended (R65). -/
def Obligations.LoadAfterStoreGivesStoredValue : Prop :=
  ∀ (s t : State) (rt rd : Reg) (imm : Imm) (rs : Reg),
    ((effectiveAddress s rs imm).toNat % 4 = 0 → exec (.sw rt imm rs) s = .next t →
        CompletesWith (.lw rd imm rs) t rd (s.readReg rt))
      ∧ ((effectiveAddress s rs imm).toNat % 2 = 0 → exec (.sh rt imm rs) s = .next t →
        CompletesWith (.lhu rd imm rs) t rd (BitVec.ofNat 32 ((s.readReg rt).toNat % 65536)))
      ∧ (exec (.sb rt imm rs) s = .next t →
        CompletesWith (.lbu rd imm rs) t rd (BitVec.ofNat 32 ((s.readReg rt).toNat % 256)))

/-- A byte load within a stored word sees the byte the byte order puts there: counted from the least significant byte
under little, from the most significant under big (R65). -/
def Obligations.ByteLoadSeesLaneOfStoredWord : Prop :=
  ∀ (s t : State) (rt rd : Reg) (imm off : Imm) (rs : Reg), ∀ k < 4, (effectiveAddress s rs imm).toNat % 4 = 0 →
    effectiveAddress s rs off = effectiveAddress s rs imm + BitVec.ofNat 32 k → exec (.sw rt imm rs) s = .next t →
    CompletesWith (.lbu rd off rs) t rd (match s.cfg.endian with
      | .little => BitVec.ofNat 32 ((s.readReg rt).toNat / 256 ^ k % 256)
      | .big => BitVec.ofNat 32 ((s.readReg rt).toNat / 256 ^ (3 - k) % 256))

/-- lui places the immediate in the upper half, the lower sixteen bits zero, and an ori of the same register after it builds
any 32-bit constant (R146, R178). -/
def Obligations.LuiAndOriBuildConstants : Prop :=
  ∀ (s : State) (rt : Reg) (high low : Imm),
    CompletesWith (.lui rt high) s rt (BitVec.ofNat 32 (high.toNat * 65536))
      ∧ ∃ t, exec (.lui rt high) s = .next t
        ∧ CompletesWith (.ori rt rt low) t rt (if rt = 0 then low.setWidth 32 else high ++ low)

/-! ## Program control (45_program_control.md) -/

/-- beq and bne go to `pc + 4 + 4 * imm`, the immediate signed, or on to the next instruction; nothing else changes
(R99, R188, R189). -/
def Obligations.BranchesGoToTargetOrOn : Prop :=
  ∀ (s : State) (rs rt : Reg) (imm : Imm),
    (s.readReg rs = s.readReg rt →
        (∃ t, exec (.beq rs rt imm) s = .next t
          ∧ WentTo s t (BitVec.ofInt 32 ((s.pc.toNat : Int) + 4 + 4 * imm.toInt)))
        ∧ ∃ t, exec (.bne rs rt imm) s = .next t ∧ WentTo s t (s.pc + 4))
      ∧ (s.readReg rs ≠ s.readReg rt →
        (∃ t, exec (.beq rs rt imm) s = .next t ∧ WentTo s t (s.pc + 4))
        ∧ ∃ t, exec (.bne rs rt imm) s = .next t
          ∧ WentTo s t (BitVec.ofInt 32 ((s.pc.toNat : Int) + 4 + 4 * imm.toInt)))

/-- slt and slti compare as two's-complement integers, sltu and sltiu as natural numbers, the immediate sign-extended
first: the constants of sltiu are 0..32767 and 4294934528..4294967295. Each writes 1 or 0 (R187, R190 to R193). -/
def Obligations.SetOnLessThan : Prop :=
  ∀ (s : State) (rd rs rt : Reg) (imm : Imm),
    CompletesWith (.slt rd rs rt) s rd (if (s.readReg rs).toInt < (s.readReg rt).toInt then 1 else 0)
      ∧ CompletesWith (.sltu rd rs rt) s rd (if (s.readReg rs).toNat < (s.readReg rt).toNat then 1 else 0)
      ∧ CompletesWith (.slti rt rs imm) s rt (if (s.readReg rs).toInt < imm.toInt then 1 else 0)
      ∧ CompletesWith (.sltiu rt rs imm) s rt
          (if (s.readReg rs).toNat < (if imm.toNat < 32768 then imm.toNat else imm.toNat + 4294901760) then 1 else 0)

/-- sltu after addu recovers the carry out of the addition (R192). -/
def Obligations.SltuRecoversCarry : Prop :=
  ∀ (s : State) (sum carry rs rt : Reg), sum ≠ 0 → rs ≠ sum →
    ∃ t, exec (.addu sum rs rt) s = .next t
      ∧ CompletesWith (.sltu carry sum rs) t carry
          (if 4294967296 ≤ (s.readReg rs).toNat + (s.readReg rt).toNat then 1 else 0)

/-- j goes to the word its field names in its own 256-megabyte region; jal goes there too and leaves the address after itself
in register 31; jr goes to the value of its register, aligned or not (R100, R194 to R196). -/
def Obligations.JumpsGoToTarget : Prop :=
  ∀ (s : State) (target : Addr26) (rs : Reg),
    (∃ t, exec (.j target) s = .next t
        ∧ WentTo s t (BitVec.ofNat 32 (s.pc.toNat / 268435456 * 268435456 + 4 * target.toNat)))
      ∧ (∃ t, exec (.jal target) s = .next t ∧ WroteRegister s t 31 (s.pc + 4)
        ∧ t.pc = BitVec.ofNat 32 (s.pc.toNat / 268435456 * 268435456 + 4 * target.toNat))
      ∧ ∃ t, exec (.jr rs) s = .next t ∧ WentTo s t (s.readReg rs)

/-- A jr to a misaligned address completes; the following fetch raises AddressErrorFetch, with EPC and BadVAddr the target,
where the run goes on at all (R186). -/
def Obligations.MisalignedJrTrapsAtNextFetch : Prop :=
  ∀ (s : State) (rs : Reg), (s.readReg rs).toNat % 4 ≠ 0 →
    ∃ t, exec (.jr rs) s = .next t ∧ WentTo s t (s.readReg rs)
      ∧ (Running t → ∃ u, step t = .next u
        ∧ TrapEntered t u (.addressErrorFetch (s.readReg rs)) 4 (some (s.readReg rs)) ∧ u.epc = s.readReg rs)

/-! ## Coprocessor 0 (46_coprocessor0.md) -/

/-- mfc0 of register 14 copies EPC, which keeps its value (R200). -/
def Obligations.Mfc0ReadsEpc : Prop :=
  ∀ (s : State) (rt : Reg), CompletesWith (.mfc0 rt 14) s rt s.epc

/-- mfc0 of any other register completes with a fresh draw. That the draws are numbered by a counter is the model's choice
(logs 10 and 11). -/
def Obligations.Mfc0OfOtherRegisterDraws : Prop :=
  ∀ (s : State) (rt rd : Reg), rd ≠ 14 →
    ∃ t, exec (.mfc0 rt rd) s = .next t ∧ WroteRegister s t rt (Config.any32 s.draws) (taken := 1)
      ∧ t.pc = s.pc + 4
end

