-- ==== Sys2Proof/Laws/Decode.lean ====
section
/-! SUPPORT. The fields of a word built by a format are the fields it was built from (R91, R95, R96), and what the
decoder's guard accepts (R113). -/

namespace Sys2Proof

/-! ## R format -/

@[simp] theorem fieldRs_rWord (rs rt rd : Reg) (sh : Shamt) (fn : BitVec 6) :
    fieldRs (rWord rs rt rd sh fn) = rs := by
  simp only [fieldRs, rWord]
  ext i hi
  simp only [BitVec.getElem_extractLsb', BitVec.getLsbD_append]
  grind

@[simp] theorem fieldRt_rWord (rs rt rd : Reg) (sh : Shamt) (fn : BitVec 6) :
    fieldRt (rWord rs rt rd sh fn) = rt := by
  simp only [fieldRt, rWord]
  ext i hi
  simp only [BitVec.getElem_extractLsb', BitVec.getLsbD_append]
  grind

@[simp] theorem fieldRd_rWord (rs rt rd : Reg) (sh : Shamt) (fn : BitVec 6) :
    fieldRd (rWord rs rt rd sh fn) = rd := by
  simp only [fieldRd, rWord]
  ext i hi
  simp only [BitVec.getElem_extractLsb', BitVec.getLsbD_append]
  grind

@[simp] theorem fieldShamt_rWord (rs rt rd : Reg) (sh : Shamt) (fn : BitVec 6) :
    fieldShamt (rWord rs rt rd sh fn) = sh := by
  simp only [fieldShamt, rWord]
  ext i hi
  simp only [BitVec.getElem_extractLsb', BitVec.getLsbD_append]
  grind

@[simp] theorem fieldFunct_rWord (rs rt rd : Reg) (sh : Shamt) (fn : BitVec 6) :
    fieldFunct (rWord rs rt rd sh fn) = fn := by
  simp only [fieldFunct, rWord]
  ext i hi
  simp only [BitVec.getElem_extractLsb', BitVec.getLsbD_append]
  grind

@[simp] theorem fieldOp_rWord (rs rt rd : Reg) (sh : Shamt) (fn : BitVec 6) : fieldOp (rWord rs rt rd sh fn) = 0#6 := by
  simp only [fieldOp, rWord]
  ext i hi
  simp only [BitVec.getElem_extractLsb', BitVec.getLsbD_append]
  grind

/-! ## I format -/

@[simp] theorem fieldOp_iWord (op : BitVec 6) (rs rt : Reg) (imm : Imm) :
    fieldOp (iWord op rs rt imm) = op := by
  simp only [fieldOp, iWord]
  ext i hi
  simp only [BitVec.getElem_extractLsb', BitVec.getLsbD_append]
  grind

@[simp] theorem fieldRs_iWord (op : BitVec 6) (rs rt : Reg) (imm : Imm) :
    fieldRs (iWord op rs rt imm) = rs := by
  simp only [fieldRs, iWord]
  ext i hi
  simp only [BitVec.getElem_extractLsb', BitVec.getLsbD_append]
  grind

@[simp] theorem fieldRt_iWord (op : BitVec 6) (rs rt : Reg) (imm : Imm) :
    fieldRt (iWord op rs rt imm) = rt := by
  simp only [fieldRt, iWord]
  ext i hi
  simp only [BitVec.getElem_extractLsb', BitVec.getLsbD_append]
  grind

@[simp] theorem fieldImm_iWord (op : BitVec 6) (rs rt : Reg) (imm : Imm) :
    fieldImm (iWord op rs rt imm) = imm := by
  simp only [fieldImm, iWord]
  ext i hi
  simp only [BitVec.getElem_extractLsb', BitVec.getLsbD_append]
  grind

/-- The coprocessor-0 register number of mfc0 stands where rd does (R109). -/
@[simp] theorem fieldRd_iWord (op : BitVec 6) (rs rt rd : Reg) :
    fieldRd (iWord op rs rt (rd ++ 0#11)) = rd := by
  simp only [fieldRd, iWord]
  ext i hi
  simp only [BitVec.getElem_extractLsb', BitVec.getLsbD_append]
  grind

/-- Its low eleven bits are zero (R109). -/
@[simp] theorem lowBits_iWord (op : BitVec 6) (rs rt rd : Reg) :
    (iWord op rs rt (rd ++ 0#11)).extractLsb' 0 11 = 0#11 := by
  simp only [iWord]
  ext i hi
  simp only [BitVec.getElem_extractLsb', BitVec.getLsbD_append]
  grind

/-! ## J format -/

@[simp] theorem fieldOp_jWord (op : BitVec 6) (target : Addr26) :
    fieldOp (jWord op target) = op := by
  simp only [fieldOp, jWord]
  ext i hi
  simp only [BitVec.getElem_extractLsb', BitVec.getLsbD_append]
  grind

@[simp] theorem fieldAddr26_jWord (op : BitVec 6) (target : Addr26) :
    fieldAddr26 (jWord op target) = target := by
  simp only [fieldAddr26, jWord]
  ext i hi
  simp only [BitVec.getElem_extractLsb', BitVec.getLsbD_append]
  grind

/-! ## A word from its fields -/

theorem rWord_fields (w : Word) (h : fieldOp w = 0#6) :
    rWord (fieldRs w) (fieldRt w) (fieldRd w) (fieldShamt w) (fieldFunct w) = w := by
  have hop : ∀ j, j < 6 → w.getLsbD (26 + j) = false := fun j hj => by
    have := congrArg (fun v => v.getLsbD j) h
    simpa [fieldOp, hj] using this
  apply BitVec.eq_of_getLsbD_eq
  intro i hi
  have hi' := hop (i - 26)
  simp only [rWord, fieldRs, fieldRt, fieldRd, fieldShamt, fieldFunct, BitVec.getLsbD_append,
    BitVec.getLsbD_extractLsb']
  grind

theorem iWord_fields (w : Word) : iWord (fieldOp w) (fieldRs w) (fieldRt w) (fieldImm w) = w := by
  apply BitVec.eq_of_getLsbD_eq
  intro i hi
  simp only [iWord, fieldOp, fieldRs, fieldRt, fieldImm, BitVec.getLsbD_append, BitVec.getLsbD_extractLsb']
  grind

theorem jWord_fields (w : Word) : jWord (fieldOp w) (fieldAddr26 w) = w := by
  apply BitVec.eq_of_getLsbD_eq
  intro i hi
  simp only [jWord, fieldOp, fieldAddr26, BitVec.getLsbD_append, BitVec.getLsbD_extractLsb']
  grind

/-! ## The guard of the zero fields -/

@[simp] theorem guardZero_true (strict : Bool) (i : Instr) : guardZero strict true i = .ok i := by
  cases strict <;> rfl

@[simp] theorem guardZero_lenient (b : Bool) (i : Instr) : guardZero false b i = .ok i := rfl

/-- What the guard accepts is its instruction, and under `STRICT_ZERO_FIELDS` the fields are zero (R113). -/
theorem guardZero_ok {strict b : Bool} {i k : Instr} (h : guardZero strict b i = .ok k) :
    k = i ∧ (strict = true → b = true) := by
  cases strict <;> cases b <;> simp_all [guardZero]

end Sys2Proof
end

