-- ==== Sys2Proof/Laws/State.lean ====
section
/-! SUPPORT. One lemma per field per update of State, so that no later proof unfolds a record update, and the laws of the
register file (R9, R31). -/

namespace Sys2Proof.Machine

/-! writeHiLo -/

@[simp] theorem writeHiLo_regs (s : State) (h l : Word) : (s.writeHiLo h l).regs = s.regs := rfl
@[simp] theorem writeHiLo_pc (s : State) (h l : Word) : (s.writeHiLo h l).pc = s.pc := rfl
@[simp] theorem writeHiLo_hi (s : State) (h l : Word) : (s.writeHiLo h l).hi = h := rfl
@[simp] theorem writeHiLo_lo (s : State) (h l : Word) : (s.writeHiLo h l).lo = l := rfl
@[simp] theorem writeHiLo_epc (s : State) (h l : Word) : (s.writeHiLo h l).epc = s.epc := rfl
@[simp] theorem writeHiLo_causeCode (s : State) (h l : Word) : (s.writeHiLo h l).causeCode = s.causeCode := rfl
@[simp] theorem writeHiLo_badVAddr (s : State) (h l : Word) : (s.writeHiLo h l).badVAddr = s.badVAddr := rfl
@[simp] theorem writeHiLo_faultMark (s : State) (h l : Word) : (s.writeHiLo h l).faultMark = s.faultMark := rfl
@[simp] theorem writeHiLo_mem (s : State) (h l : Word) : (s.writeHiLo h l).mem = s.mem := rfl
@[simp] theorem writeHiLo_draws (s : State) (h l : Word) : (s.writeHiLo h l).draws = s.draws := rfl
@[simp] theorem writeHiLo_cfg (s : State) (h l : Word) : (s.writeHiLo h l).cfg = s.cfg := rfl

/-! advance -/

@[simp] theorem advance_regs (s : State) : (s.advance).regs = s.regs := rfl
@[simp] theorem advance_pc (s : State) : (s.advance).pc = s.pc + 4 := rfl
@[simp] theorem advance_hi (s : State) : (s.advance).hi = s.hi := rfl
@[simp] theorem advance_lo (s : State) : (s.advance).lo = s.lo := rfl
@[simp] theorem advance_epc (s : State) : (s.advance).epc = s.epc := rfl
@[simp] theorem advance_causeCode (s : State) : (s.advance).causeCode = s.causeCode := rfl
@[simp] theorem advance_badVAddr (s : State) : (s.advance).badVAddr = s.badVAddr := rfl
@[simp] theorem advance_faultMark (s : State) : (s.advance).faultMark = s.faultMark := rfl
@[simp] theorem advance_mem (s : State) : (s.advance).mem = s.mem := rfl
@[simp] theorem advance_draws (s : State) : (s.advance).draws = s.draws := rfl
@[simp] theorem advance_cfg (s : State) : (s.advance).cfg = s.cfg := rfl

/-! jump -/

@[simp] theorem jump_regs (s : State) (t : Word) : (s.jump t).regs = s.regs := rfl
@[simp] theorem jump_pc (s : State) (t : Word) : (s.jump t).pc = t := rfl
@[simp] theorem jump_hi (s : State) (t : Word) : (s.jump t).hi = s.hi := rfl
@[simp] theorem jump_lo (s : State) (t : Word) : (s.jump t).lo = s.lo := rfl
@[simp] theorem jump_epc (s : State) (t : Word) : (s.jump t).epc = s.epc := rfl
@[simp] theorem jump_causeCode (s : State) (t : Word) : (s.jump t).causeCode = s.causeCode := rfl
@[simp] theorem jump_badVAddr (s : State) (t : Word) : (s.jump t).badVAddr = s.badVAddr := rfl
@[simp] theorem jump_faultMark (s : State) (t : Word) : (s.jump t).faultMark = s.faultMark := rfl
@[simp] theorem jump_mem (s : State) (t : Word) : (s.jump t).mem = s.mem := rfl
@[simp] theorem jump_draws (s : State) (t : Word) : (s.jump t).draws = s.draws := rfl
@[simp] theorem jump_cfg (s : State) (t : Word) : (s.jump t).cfg = s.cfg := rfl

/-! drawn -/

@[simp] theorem drawn_regs (s : State) : (s.drawn).regs = s.regs := rfl
@[simp] theorem drawn_pc (s : State) : (s.drawn).pc = s.pc := rfl
@[simp] theorem drawn_hi (s : State) : (s.drawn).hi = s.hi := rfl
@[simp] theorem drawn_lo (s : State) : (s.drawn).lo = s.lo := rfl
@[simp] theorem drawn_epc (s : State) : (s.drawn).epc = s.epc := rfl
@[simp] theorem drawn_causeCode (s : State) : (s.drawn).causeCode = s.causeCode := rfl
@[simp] theorem drawn_badVAddr (s : State) : (s.drawn).badVAddr = s.badVAddr := rfl
@[simp] theorem drawn_faultMark (s : State) : (s.drawn).faultMark = s.faultMark := rfl
@[simp] theorem drawn_mem (s : State) : (s.drawn).mem = s.mem := rfl
@[simp] theorem drawn_draws (s : State) : (s.drawn).draws = s.draws + 1 := rfl
@[simp] theorem drawn_cfg (s : State) : (s.drawn).cfg = s.cfg := rfl

/-! memWrite -/

@[simp] theorem memWrite_regs (s : State) (w : Width) (a v : Word) : (memWrite s w a v).regs = s.regs := rfl
@[simp] theorem memWrite_pc (s : State) (w : Width) (a v : Word) : (memWrite s w a v).pc = s.pc := rfl
@[simp] theorem memWrite_hi (s : State) (w : Width) (a v : Word) : (memWrite s w a v).hi = s.hi := rfl
@[simp] theorem memWrite_lo (s : State) (w : Width) (a v : Word) : (memWrite s w a v).lo = s.lo := rfl
@[simp] theorem memWrite_epc (s : State) (w : Width) (a v : Word) : (memWrite s w a v).epc = s.epc := rfl
@[simp] theorem memWrite_causeCode (s : State) (w : Width) (a v : Word) : (memWrite s w a v).causeCode = s.causeCode := rfl
@[simp] theorem memWrite_badVAddr (s : State) (w : Width) (a v : Word) : (memWrite s w a v).badVAddr = s.badVAddr := rfl
@[simp] theorem memWrite_faultMark (s : State) (w : Width) (a v : Word) : (memWrite s w a v).faultMark = s.faultMark := rfl
@[simp] theorem memWrite_mem (s : State) (w : Width) (a v : Word) : (memWrite s w a v).mem = writeLanes s.mem s.cfg.endian (widthBytes w) a v (widthBytes w) := rfl
@[simp] theorem memWrite_draws (s : State) (w : Width) (a v : Word) : (memWrite s w a v).draws = s.draws := rfl
@[simp] theorem memWrite_cfg (s : State) (w : Width) (a v : Word) : (memWrite s w a v).cfg = s.cfg := rfl

/-! trapState -/

@[simp] theorem trapState_regs (s : State) (t : Trap) : (trapState t s).regs = s.regs := rfl
@[simp] theorem trapState_pc (s : State) (t : Trap) : (trapState t s).pc = trapPc s := rfl
@[simp] theorem trapState_hi (s : State) (t : Trap) : (trapState t s).hi = s.hi := rfl
@[simp] theorem trapState_lo (s : State) (t : Trap) : (trapState t s).lo = s.lo := rfl
@[simp] theorem trapState_epc (s : State) (t : Trap) : (trapState t s).epc = s.pc := rfl
@[simp] theorem trapState_causeCode (s : State) (t : Trap) : (trapState t s).causeCode = trapCode t := rfl
@[simp] theorem trapState_badVAddr (s : State) (t : Trap) : (trapState t s).badVAddr = (trapAddress t).getD s.badVAddr := rfl
@[simp] theorem trapState_faultMark (s : State) (t : Trap) : (trapState t s).faultMark = some ⟨t, s.pc⟩ := rfl
@[simp] theorem trapState_mem (s : State) (t : Trap) : (trapState t s).mem = s.mem := rfl
@[simp] theorem trapState_draws (s : State) (t : Trap) : (trapState t s).draws = s.draws := rfl
@[simp] theorem trapState_cfg (s : State) (t : Trap) : (trapState t s).cfg = s.cfg := rfl

/-! writeReg: register 0 discards the write, so its lemmas split on the register. -/

@[simp] theorem writeReg_pc (s : State) (r : Reg) (v : Word) : (s.writeReg r v).pc = s.pc := by
  unfold State.writeReg; split <;> rfl

@[simp] theorem writeReg_hi (s : State) (r : Reg) (v : Word) : (s.writeReg r v).hi = s.hi := by
  unfold State.writeReg; split <;> rfl

@[simp] theorem writeReg_lo (s : State) (r : Reg) (v : Word) : (s.writeReg r v).lo = s.lo := by
  unfold State.writeReg; split <;> rfl

@[simp] theorem writeReg_epc (s : State) (r : Reg) (v : Word) : (s.writeReg r v).epc = s.epc := by
  unfold State.writeReg; split <;> rfl

@[simp] theorem writeReg_causeCode (s : State) (r : Reg) (v : Word) : (s.writeReg r v).causeCode = s.causeCode := by
  unfold State.writeReg; split <;> rfl

@[simp] theorem writeReg_badVAddr (s : State) (r : Reg) (v : Word) : (s.writeReg r v).badVAddr = s.badVAddr := by
  unfold State.writeReg; split <;> rfl

@[simp] theorem writeReg_faultMark (s : State) (r : Reg) (v : Word) : (s.writeReg r v).faultMark = s.faultMark := by
  unfold State.writeReg; split <;> rfl

@[simp] theorem writeReg_mem (s : State) (r : Reg) (v : Word) : (s.writeReg r v).mem = s.mem := by
  unfold State.writeReg; split <;> rfl

@[simp] theorem writeReg_draws (s : State) (r : Reg) (v : Word) : (s.writeReg r v).draws = s.draws := by
  unfold State.writeReg; split <;> rfl

@[simp] theorem writeReg_cfg (s : State) (r : Reg) (v : Word) : (s.writeReg r v).cfg = s.cfg := by
  unfold State.writeReg; split <;> rfl

/-! The register file. -/

@[simp] theorem readReg_zero (s : State) : s.readReg 0#5 = 0 := rfl

@[simp] theorem writeReg_zero (s : State) (v : Word) : s.writeReg 0#5 v = s := rfl

theorem readReg_congr {s t : State} (h : t.regs = s.regs) (q : Reg) : t.readReg q = s.readReg q := by
  simp only [State.readReg, h]

theorem readReg_writeReg (s : State) (r q : Reg) (v : Word) :
    (s.writeReg r v).readReg q = if q = r then (if r = 0#5 then 0 else v) else s.readReg q := by
  by_cases hr : r = 0#5
  · subst hr
    by_cases hq : q = 0#5 <;> simp [hq]
  · by_cases hq : q = r
    · subst hq
      simp [State.readReg, State.writeReg, hr]
    · have hne : ¬ r.toNat = q.toNat := fun h => hq (BitVec.eq_of_toNat_eq h.symm)
      simp only [State.readReg, State.writeReg, hr, if_false, if_neg hq]
      split
      · rfl
      · exact Vector.getElem_set_ne _ _ hne

theorem readReg_writeReg_same (s : State) (r : Reg) (v : Word) :
    (s.writeReg r v).readReg r = if r = 0#5 then 0 else v := by
  simp [readReg_writeReg]

theorem readReg_writeReg_other (s : State) {r q : Reg} (v : Word) (h : q ≠ r) :
    (s.writeReg r v).readReg q = s.readReg q := by
  simp [readReg_writeReg, h]

/-- The slot of register 0 is never written. -/
theorem writeReg_zeroSlot (s : State) (r : Reg) (v : Word) : (s.writeReg r v).regs[0] = s.regs[0] := by
  unfold State.writeReg
  split
  · rfl
  · next h =>
    have hne : ¬ r.toNat = 0 := fun e => h (BitVec.eq_of_toNat_eq e)
    exact Vector.getElem_set_ne r.isLt (by decide) hne

/-- Nor does the launch write it (R242). -/
theorem placeRegs_zeroSlot (v : Vector Word 32) (regs : List (Reg × Word)) : (placeRegs v regs)[0] = v[0] := by
  induction regs generalizing v with
  | nil => rfl
  | cons c rest ih =>
    obtain ⟨r, x⟩ := c
    rw [placeRegs, ih]
    split
    · rfl
    · next h =>
      have hne : ¬ r.toNat = 0 := fun e => h (BitVec.eq_of_toNat_eq e)
      exact Vector.getElem_set_ne r.isLt (by decide) hne

/-! Updates that leave every general register alone. -/

@[simp] theorem readReg_writeHiLo (s : State) (h l : Word) (q : Reg) :
    (s.writeHiLo h l).readReg q = s.readReg q := rfl

@[simp] theorem readReg_advance (s : State) (q : Reg) : s.advance.readReg q = s.readReg q := rfl

@[simp] theorem readReg_jump (s : State) (t : Word) (q : Reg) : (s.jump t).readReg q = s.readReg q := rfl

@[simp] theorem readReg_drawn (s : State) (q : Reg) : s.drawn.readReg q = s.readReg q := rfl

@[simp] theorem readReg_memWrite (s : State) (w : Width) (a v : Word) (q : Reg) :
    (memWrite s w a v).readReg q = s.readReg q := rfl

@[simp] theorem readReg_trapState (s : State) (t : Trap) (q : Reg) :
    (trapState t s).readReg q = s.readReg q := rfl

/-! finishReg, the result every one-register instruction ends in. -/

@[simp] theorem finishReg_hi (s : State) (r : Reg) (v : Word) : (s.finishReg r v).hi = s.hi := by
  simp [State.finishReg]

@[simp] theorem finishReg_lo (s : State) (r : Reg) (v : Word) : (s.finishReg r v).lo = s.lo := by
  simp [State.finishReg]

@[simp] theorem finishReg_epc (s : State) (r : Reg) (v : Word) : (s.finishReg r v).epc = s.epc := by
  simp [State.finishReg]

@[simp] theorem finishReg_causeCode (s : State) (r : Reg) (v : Word) : (s.finishReg r v).causeCode = s.causeCode := by
  simp [State.finishReg]

@[simp] theorem finishReg_badVAddr (s : State) (r : Reg) (v : Word) : (s.finishReg r v).badVAddr = s.badVAddr := by
  simp [State.finishReg]

@[simp] theorem finishReg_faultMark (s : State) (r : Reg) (v : Word) : (s.finishReg r v).faultMark = s.faultMark := by
  simp [State.finishReg]

@[simp] theorem finishReg_mem (s : State) (r : Reg) (v : Word) : (s.finishReg r v).mem = s.mem := by
  simp [State.finishReg]

@[simp] theorem finishReg_draws (s : State) (r : Reg) (v : Word) : (s.finishReg r v).draws = s.draws := by
  simp [State.finishReg]

@[simp] theorem finishReg_cfg (s : State) (r : Reg) (v : Word) : (s.finishReg r v).cfg = s.cfg := by
  simp [State.finishReg]

@[simp] theorem finishReg_pc (s : State) (r : Reg) (v : Word) : (s.finishReg r v).pc = s.pc + 4 := by
  simp [State.finishReg]

theorem readReg_finishReg (s : State) (r q : Reg) (v : Word) :
    (s.finishReg r v).readReg q = if q = r then (if r = 0#5 then 0 else v) else s.readReg q := by
  simp [State.finishReg, readReg_writeReg]

theorem finishReg_zeroSlot (s : State) (r : Reg) (v : Word) : (s.finishReg r v).regs[0] = s.regs[0] := by
  simp only [State.finishReg, advance_regs, writeReg_zeroSlot]

/-- Memory as an address sees it depends on the memory field alone. -/
theorem byteAt_congr {s t : State} (h : t.mem = s.mem) (a : Word) : t.byteAt a = s.byteAt a := by
  simp only [State.byteAt, h]

@[simp] theorem byteAt_advance (s : State) (a : Word) : s.advance.byteAt a = s.byteAt a := rfl

@[simp] theorem byteAt_jump (s : State) (t a : Word) : (s.jump t).byteAt a = s.byteAt a := rfl

@[simp] theorem byteAt_writeHiLo (s : State) (h l a : Word) : (s.writeHiLo h l).byteAt a = s.byteAt a := rfl

@[simp] theorem byteAt_trapState (s : State) (t : Trap) (a : Word) : (trapState t s).byteAt a = s.byteAt a := rfl

@[simp] theorem byteAt_finishReg (s : State) (r : Reg) (v a : Word) : (s.finishReg r v).byteAt a = s.byteAt a :=
  byteAt_congr (by simp) a

end Sys2Proof.Machine
end

