-- ==== Sys2Proof/Laws/Memory.lean ====
section
/-! SUPPORT. The laws of memory: read after write, the canonical form (R44), and what a wide access reads and writes (R64,
R65). -/

namespace Sys2Proof.Machine

/-! ## One byte -/

theorem Memory.read_write_same (m : Memory) (a : Nat) (v : Byte) :
    Memory.read (Memory.write m a v) a = some v := by
  induction m with
  | nil => simp [Memory.write, Memory.read]
  | cons c m ih =>
    obtain ⟨k, b⟩ := c
    by_cases h1 : a < k
    · simp [Memory.write, Memory.read, h1]
    · by_cases h2 : a = k <;> simp [Memory.write, Memory.read, h1, h2, ih]

theorem Memory.read_write_other (m : Memory) {a b : Nat} (v : Byte) (h : b ≠ a) :
    Memory.read (Memory.write m a v) b = Memory.read m b := by
  induction m with
  | nil => simp [Memory.write, Memory.read, h]
  | cons c m ih =>
    obtain ⟨k, x⟩ := c
    by_cases h1 : a < k
    · simp [Memory.write, Memory.read, h1, h]
    · by_cases h2 : a = k
      · subst h2; simp [Memory.write, Memory.read, h]
      · by_cases h3 : b = k <;> simp [Memory.write, Memory.read, h1, h2, h3, ih]

/-! ## The canonical form -/

theorem Memory.risesFrom_write (m : Memory) (a lo : Nat) (v : Byte) (hlo : lo ≤ a)
    (h : Memory.risesFrom lo m = true) : Memory.risesFrom lo (Memory.write m a v) = true := by
  induction m generalizing lo with
  | nil => simpa [Memory.write, Memory.risesFrom] using hlo
  | cons c m ih =>
    obtain ⟨k, b⟩ := c
    simp only [Memory.risesFrom, Bool.and_eq_true, decide_eq_true_eq] at h
    by_cases h1 : a < k
    · simp [Memory.write, Memory.risesFrom, h1, hlo, h.2]
    · by_cases h2 : a = k
      · subst h2; simp [Memory.write, Memory.risesFrom, h]
      · have := ih (k + 1) (by omega) h.2
        simp [Memory.write, Memory.risesFrom, h1, h2, h.1, this]

theorem Memory.all_write (m : Memory) (p : Host.Cell → Bool) (a : Nat) (v : Byte)
    (h : m.all p = true) (hp : p (a, v) = true) : (Memory.write m a v).all p = true := by
  induction m with
  | nil => simp [Memory.write, hp]
  | cons c m ih =>
    obtain ⟨k, b⟩ := c
    simp only [List.all_cons, Bool.and_eq_true] at h
    by_cases h1 : a < k
    · simp [Memory.write, h1, hp, h]
    · by_cases h2 : a = k
      · subst h2; simp [Memory.write, hp, h]
      · simp [Memory.write, h1, h2, h.1, ih h.2]

/-- A write at a 32-bit address keeps the canonical form. -/
theorem Memory.wf_write (m : Memory) (a : Nat) (v : Byte) (ha : a < 0x100000000)
    (h : Memory.wf m = true) : Memory.wf (Memory.write m a v) = true := by
  simp only [Memory.wf, Bool.and_eq_true] at h ⊢
  exact ⟨Memory.risesFrom_write m a 0 v (Nat.zero_le a) h.1,
    Memory.all_write m _ a v h.2 (by simp [ha, unlistedByte])⟩

theorem Memory.wf_place (m : Memory) (image : List (Word × Byte)) (h : Memory.wf m = true) :
    Memory.wf (Memory.place m image) = true := by
  induction image generalizing m with
  | nil => exact h
  | cons c rest ih => exact ih _ (Memory.wf_write m _ _ c.1.isLt h)

/-! ## Several bytes -/

/-- Bytes of one access stand at different addresses. -/
theorem offset_ne (a : Word) {j k : Nat} (hj : j < 4) (hk : k < 4) (h : j ≠ k) :
    a + BitVec.ofNat 32 j ≠ a + BitVec.ofNat 32 k := by
  intro e
  have e2 : BitVec.ofNat 32 j = BitVec.ofNat 32 k := by simpa using e
  have e3 := congrArg BitVec.toNat e2
  simp only [BitVec.toNat_ofNat] at e3
  omega

theorem writeLanes_wf (m : Memory) (e : Endian) (n : Nat) (a v : Word) (k : Nat)
    (h : Memory.wf m = true) : Memory.wf (writeLanes m e n a v k) = true := by
  induction k with
  | zero => exact h
  | succ k ih => exact Memory.wf_write _ _ _ (a + BitVec.ofNat 32 k).isLt ih

/-- A wide write leaves every other byte alone (R65). -/
theorem read_writeLanes_other (m : Memory) (e : Endian) (n : Nat) (a v b : Word) (k : Nat)
    (h : ∀ j < k, b ≠ a + BitVec.ofNat 32 j) :
    Memory.read (writeLanes m e n a v k) b.toNat = Memory.read m b.toNat := by
  induction k with
  | zero => rfl
  | succ k ih =>
    have hne : b.toNat ≠ (a + BitVec.ofNat 32 k).toNat :=
      fun e => h k (Nat.lt_succ_self k) (BitVec.eq_of_toNat_eq e)
    rw [writeLanes, Memory.read_write_other _ _ hne]
    exact ih fun j hj => h j (Nat.lt_succ_of_lt hj)

/-- A wide write puts its lanes where R65 says. -/
theorem read_writeLanes_same (m : Memory) (e : Endian) (n : Nat) (a v : Word) {j k : Nat} (hk : k ≤ 4) (hj : j < k) :
    Memory.read (writeLanes m e n a v k) (a + BitVec.ofNat 32 j).toNat = some (laneByte v (lane e n j)) := by
  induction k with
  | zero => omega
  | succ k ih =>
    rw [writeLanes]
    by_cases hjk : j = k
    · subst hjk; exact Memory.read_write_same _ _ _
    · have hne : (a + BitVec.ofNat 32 j).toNat ≠ (a + BitVec.ofNat 32 k).toNat :=
        fun e => offset_ne a (by omega) (by omega) hjk (BitVec.eq_of_toNat_eq e)
      rw [Memory.read_write_other _ _ hne]
      exact ih (by omega) (by omega)

theorem widthBytes_le (w : Width) : widthBytes w ≤ 4 := by cases w <;> decide

/-- A store leaves every byte outside its own alone. -/
theorem byteAt_memWrite_other (s : State) (w : Width) (a v b : Word)
    (h : ∀ k < widthBytes w, b ≠ a + BitVec.ofNat 32 k) : (memWrite s w a v).byteAt b = s.byteAt b :=
  read_writeLanes_other _ _ _ _ _ _ _ h

/-- A store puts each of its bytes at its lane. -/
theorem byteAt_memWrite_same (s : State) (w : Width) (a v : Word) {k : Nat} (hk : k < widthBytes w) :
    (memWrite s w a v).byteAt (a + BitVec.ofNat 32 k)
      = some (laneByte v (lane s.cfg.endian (widthBytes w) k)) :=
  read_writeLanes_same _ _ _ _ _ (widthBytes_le w) hk

theorem memWrite_wf (s : State) (w : Width) (a v : Word) (h : Memory.wf s.mem = true) :
    Memory.wf (memWrite s w a v).mem = true :=
  writeLanes_wf _ _ _ _ _ _ h

/-! ## Reads, by width (R64) -/

/-- Four bytes at their lanes are their concatenation. -/
theorem append_eq_lanes (b0 b1 b2 b3 : Byte) :
    (b3 ++ b2 ++ b1 ++ b0 : Word)
      = 0 ||| laneWord b0 0 ||| laneWord b1 1 ||| laneWord b2 2 ||| laneWord b3 3 := by
  apply BitVec.eq_of_getLsbD_eq
  intro i hi
  simp only [laneWord, BitVec.getLsbD_or, BitVec.getLsbD_shiftLeft, BitVec.getLsbD_setWidth,
    BitVec.getLsbD_append]
  have z0 : ∀ j, 8 ≤ j → b0.getLsbD j = false := fun j h => BitVec.getLsbD_of_ge _ _ h
  have z1 : ∀ j, 8 ≤ j → b1.getLsbD j = false := fun j h => BitVec.getLsbD_of_ge _ _ h
  have z2 : ∀ j, 8 ≤ j → b2.getLsbD j = false := fun j h => BitVec.getLsbD_of_ge _ _ h
  by_cases h8 : i < 8
  · simp [h8, hi, show i < 16 by omega, show i < 24 by omega]
  · by_cases h16 : i < 16
    · simp [h8, h16, hi, z0 i (by omega), show i - 8 < 8 by omega, show i < 24 by omega,
        show i - 8 < 32 by omega]
    · by_cases h24 : i < 24
      · simp [h8, h16, h24, hi, z0 i (by omega), z1 (i - 8) (by omega), show ¬ i - 8 < 8 by omega,
          show i - 16 < 32 by omega, show i - 8 - 8 = i - 16 by omega, show i - 16 < 8 by omega]
      · simp [h8, h16, h24, hi, z0 i (by omega), z1 (i - 8) (by omega), z2 (i - 16) (by omega),
          show ¬ i - 8 < 8 by omega, show ¬ i - 16 < 8 by omega, show i - 24 < 32 by omega,
          show i - 8 - 8 = i - 16 by omega, show i - 16 - 8 = i - 24 by omega]

/-- Two bytes at their lanes are their concatenation, zero-extended. -/
theorem append_half_eq_lanes (b0 b1 : Byte) :
    ((b1 ++ b0 : BitVec 16).setWidth 32 : Word) = 0 ||| laneWord b0 0 ||| laneWord b1 1 := by
  apply BitVec.eq_of_getLsbD_eq
  intro i hi
  simp only [laneWord, BitVec.getLsbD_or, BitVec.getLsbD_shiftLeft, BitVec.getLsbD_setWidth,
    BitVec.getLsbD_append]
  have z0 : ∀ j, 8 ≤ j → b0.getLsbD j = false := fun j h => BitVec.getLsbD_of_ge _ _ h
  by_cases h8 : i < 8
  · simp [h8, hi]
  · simp [h8, hi, z0 i (by omega), show i - 8 < 32 by omega]

/-- The lanes of a word in either direction. -/
theorem or_reverse4 (x y z w : Word) : 0 ||| x ||| y ||| z ||| w = 0 ||| w ||| z ||| y ||| x := by
  ac_rfl

/-- A byte reads as itself in either order. -/
theorem memRead_byte (s : State) (a : Word) {b0 : Byte} (h0 : s.byteAt a = some b0) :
    memRead s .byte a = .ok (b0.setWidth 32) := by
  have hl : lane s.cfg.endian 1 0 = 0 := by cases s.cfg.endian <;> rfl
  simp [memRead, widthBytes, readLanes, h0, hl, laneWord]

/-- A halfword as R64 assembles it. -/
theorem memRead_half (s : State) (a : Word) {b0 b1 : Byte} (h0 : s.byteAt a = some b0)
    (h1 : s.byteAt (a + 1) = some b1) :
    memRead s .half a = .ok (match s.cfg.endian with
      | .little => (b1 ++ b0 : BitVec 16).setWidth 32
      | .big => (b0 ++ b1 : BitVec 16).setWidth 32) := by
  have h0' : s.byteAt (a + BitVec.ofNat 32 0) = some b0 := by simpa using h0
  have h1' : s.byteAt (a + BitVec.ofNat 32 1) = some b1 := by simpa using h1
  simp only [memRead, widthBytes, readLanes, h0', h1']
  cases s.cfg.endian <;> simp only [lane, Nat.reduceSub]
  · exact congrArg Access.ok (append_half_eq_lanes b0 b1).symm
  · refine congrArg Access.ok (Eq.trans ?_ (append_half_eq_lanes b1 b0).symm)
    ac_rfl

/-- A word as R64 assembles it. -/
theorem memRead_word (s : State) (a : Word) {b0 b1 b2 b3 : Byte} (h0 : s.byteAt a = some b0)
    (h1 : s.byteAt (a + 1) = some b1) (h2 : s.byteAt (a + 2) = some b2) (h3 : s.byteAt (a + 3) = some b3) :
    memRead s .word a = .ok (bytesWord s.cfg.endian b0 b1 b2 b3) := by
  have h0' : s.byteAt (a + BitVec.ofNat 32 0) = some b0 := by simpa using h0
  have h1' : s.byteAt (a + BitVec.ofNat 32 1) = some b1 := by simpa using h1
  have h2' : s.byteAt (a + BitVec.ofNat 32 2) = some b2 := by simpa using h2
  have h3' : s.byteAt (a + BitVec.ofNat 32 3) = some b3 := by simpa using h3
  simp only [memRead, widthBytes, readLanes, h0', h1', h2', h3']
  cases s.cfg.endian <;> simp only [lane, Nat.reduceSub]
  · exact congrArg Access.ok (append_eq_lanes b0 b1 b2 b3).symm
  · exact congrArg Access.ok ((or_reverse4 _ _ _ _).trans (append_eq_lanes b3 b2 b1 b0).symm)

/-- What a read can answer: a value where every byte has one, else the fault of the lowest byte that has none (R46, U4). -/
theorem readLanes_cases (s : State) (n : Nat) (a : Word) (k : Nat) :
    (∃ v, readLanes s n a k = .ok v ∧ ∀ j < k, (s.byteAt (a + BitVec.ofNat 32 j)).isSome)
      ∨ (∃ j < k, readLanes s n a k = .fault (.unwrittenByte (a + BitVec.ofNat 32 j))
          ∧ s.byteAt (a + BitVec.ofNat 32 j) = none ∧ ∀ i < j, (s.byteAt (a + BitVec.ofNat 32 i)).isSome) := by
  induction k with
  | zero => exact .inl ⟨0, rfl, by omega⟩
  | succ k ih =>
    rcases ih with ⟨v, hv, hb⟩ | ⟨j, hj, hf, hn, hl⟩
    · cases hk : s.byteAt (a + BitVec.ofNat 32 k) with
      | none => exact .inr ⟨k, Nat.lt_succ_self k, by simp only [readLanes, hv, hk], hk, hb⟩
      | some b =>
        refine .inl ⟨_, by simp only [readLanes, hv, hk]; rfl, fun j hj => ?_⟩
        rcases Nat.lt_succ_iff_lt_or_eq.mp hj with h | h
        · exact hb j h
        · subst h; simp [hk]
    · exact .inr ⟨j, by omega, by simp only [readLanes, hf], hn, hl⟩

end Sys2Proof.Machine
end

