-- ==== Sys2Proof/Laws/Ops.lean ====
section
/-! SUPPORT. What each shared operation can answer, said once: an access and its checks (R69, R171), trap entry (R214),
and when a step exists (R214, R243). -/

namespace Sys2Proof.Machine

/-! ## settle -/

@[simp] theorem settle_ok {α : Type} (a : α) (s : State) (k : α → Result) : settle (.ok a) s k = k a := rfl

@[simp] theorem settle_trap {α : Type} (t : Trap) (s : State) (k : α → Result) :
    settle (.trap t) s k = .next (trapState t s) := rfl

@[simp] theorem settle_fault {α : Type} (f : Fault) (s : State) (k : α → Result) :
    settle (.fault f) s k = .fault f := rfl

@[simp] theorem settle_refused {α : Type} (r : Refusal) (s : State) (k : α → Result) :
    settle (.refused r) s k = .refused r := rfl

/-- A next state comes from a value of the access or from its exception. -/
theorem settle_next {α : Type} {x : Access α} {s t : State} {k : α → Result} (h : settle x s k = .next t) :
    (∃ a, x = .ok a ∧ k a = .next t) ∨ (∃ e, x = .trap e ∧ t = trapState e s) := by
  cases x with
  | ok a => exact .inl ⟨a, rfl, h⟩
  | trap e => exact .inr ⟨e, rfl, (Host.Outcome.next.inj h).symm⟩
  | fault f => cases h
  | refused r => cases h

/-! ## Trap entry -/

/-- Trap entry is what R214 says, for every exception. -/
theorem trapState_entered (e : Trap) (s : State) :
    TrapEntered s (trapState e s) e (trapCode e) (trapAddress e) where
  epc := rfl
  causeCode := rfl
  badVAddr := rfl
  faultMark := rfl
  pcHalt h := by simp [trapPc, h]
  pcVector h := by simp [trapPc, h]
  registers _ := rfl
  hi := rfl
  lo := rfl
  memory _ := rfl
  cfg := rfl
  draws := rfl

/-! ## Accesses -/

theorem aligned_iff (w : Width) (a : Word) : aligned w a = true ↔ a.toNat % widthBytes w = 0 := by simp [aligned]

theorem not_aligned_iff (w : Width) (a : Word) : aligned w a = false ↔ a.toNat % widthBytes w ≠ 0 := by
  simp [aligned]

theorem loadAt_misaligned {s : State} {w : Width} {a : Word} (h : aligned w a = false) :
    loadAt s w a = .trap (.addressErrorLoad a) := by simp [loadAt, h]

theorem loadAt_outside {s : State} {w : Width} {a : Word} (h : aligned w a = true)
    (hd : spanInDomain s.cfg a (widthBytes w) = false) : loadAt s w a = .fault (.outsideMemory a) := by
  simp [loadAt, h, hd]

theorem loadAt_inside {s : State} {w : Width} {a : Word} (h : aligned w a = true)
    (hd : spanInDomain s.cfg a (widthBytes w) = true) : loadAt s w a = memRead s w a := by
  simp [loadAt, h, hd]

/-- A load that faults is aligned, and either leaves `MEM_DOMAIN` or is populated and has a byte without a value. -/
theorem loadAt_fault {s : State} {w : Width} {a : Word} {f : Fault} (h : loadAt s w a = .fault f) :
    aligned w a = true
      ∧ ((f = .outsideMemory a ∧ spanInDomain s.cfg a (widthBytes w) = false)
        ∨ (spanInDomain s.cfg a (widthBytes w) = true
          ∧ ∃ k < widthBytes w, s.byteAt (a + BitVec.ofNat 32 k) = none
            ∧ f = .unwrittenByte (a + BitVec.ofNat 32 k))) := by
  unfold loadAt at h
  split at h
  · cases h
  · next ha =>
    refine ⟨by simpa using ha, ?_⟩
    split at h
    · next hd => cases h; exact .inl ⟨rfl, by simpa using hd⟩
    · next hd =>
      rcases readLanes_cases s (widthBytes w) a (widthBytes w) with ⟨v, hv, -⟩ | ⟨j, hj, hf, hn, -⟩
      · rw [memRead, hv] at h; cases h
      · rw [memRead, hf] at h; cases h
        exact .inr ⟨by simpa using hd, j, hj, hn, rfl⟩

/-- No load is refused. -/
theorem loadAt_not_refused {s : State} {w : Width} {a : Word} {r : Refusal} : loadAt s w a ≠ .refused r := by
  intro h
  unfold loadAt at h
  split at h
  · cases h
  · split at h
    · cases h
    · rcases readLanes_cases s (widthBytes w) a (widthBytes w) with ⟨v, hv, -⟩ | ⟨j, -, hf, -, -⟩
      · rw [memRead, hv] at h; cases h
      · rw [memRead, hf] at h; cases h

/-- The one exception of a load is its address error. -/
theorem loadAt_trap {s : State} {w : Width} {a : Word} {e : Trap} (h : loadAt s w a = .trap e) :
    e = .addressErrorLoad a ∧ aligned w a = false := by
  unfold loadAt at h
  split at h
  · next hm => exact ⟨by cases h; rfl, by simpa using hm⟩
  · split at h
    · cases h
    · rcases readLanes_cases s (widthBytes w) a (widthBytes w) with ⟨v, hv, -⟩ | ⟨j, -, hf, -, -⟩
      · rw [memRead, hv] at h; cases h
      · rw [memRead, hf] at h; cases h

theorem storeAt_misaligned {s : State} {w : Width} {a v : Word} (h : aligned w a = false) :
    storeAt s w a v = .trap (.addressErrorStore a) := by simp [storeAt, h]

theorem storeAt_text {s : State} {w : Width} {a v : Word} (h : aligned w a = true)
    (ht : spanMeetsText s.cfg a (widthBytes w) = true) : storeAt s w a v = .refused (.storeIntoText a) := by
  simp [storeAt, h, ht]

theorem storeAt_outside {s : State} {w : Width} {a v : Word} (h : aligned w a = true)
    (ht : spanMeetsText s.cfg a (widthBytes w) = false) (hd : spanInDomain s.cfg a (widthBytes w) = false) :
    storeAt s w a v = .fault (.outsideMemory a) := by simp [storeAt, h, ht, hd]

theorem storeAt_inside {s : State} {w : Width} {a v : Word} (h : aligned w a = true)
    (ht : spanMeetsText s.cfg a (widthBytes w) = false) (hd : spanInDomain s.cfg a (widthBytes w) = true) :
    storeAt s w a v = .ok (memWrite s w a v) := by simp [storeAt, h, ht, hd]

/-- A store that goes through passed all its checks. -/
theorem storeAt_ok {s t : State} {w : Width} {a v : Word} (h : storeAt s w a v = .ok t) :
    t = memWrite s w a v ∧ aligned w a = true ∧ spanMeetsText s.cfg a (widthBytes w) = false
      ∧ spanInDomain s.cfg a (widthBytes w) = true := by
  unfold storeAt at h
  split at h
  · cases h
  · split at h
    · cases h
    · split at h
      · cases h
      · cases h; simp_all

/-- The one exception of a store is its address error. -/
theorem storeAt_trap {s : State} {w : Width} {a v : Word} {e : Trap} (h : storeAt s w a v = .trap e) :
    e = .addressErrorStore a ∧ aligned w a = false := by
  unfold storeAt at h
  split at h
  · next hm => exact ⟨by cases h; rfl, by simpa using hm⟩
  · split at h
    · cases h
    · split at h <;> cases h

/-- A store that faults is aligned, clear of `TEXT` and leaves `MEM_DOMAIN`. -/
theorem storeAt_fault {s : State} {w : Width} {a v : Word} {f : Fault} (h : storeAt s w a v = .fault f) :
    aligned w a = true ∧ spanMeetsText s.cfg a (widthBytes w) = false
      ∧ spanInDomain s.cfg a (widthBytes w) = false ∧ f = .outsideMemory a := by
  unfold storeAt at h
  split at h
  · cases h
  · split at h
    · cases h
    · split at h
      · cases h; simp_all
      · cases h

/-- A store that is refused is aligned and meets `TEXT`. -/
theorem storeAt_refused {s : State} {w : Width} {a v : Word} {r : Refusal} (h : storeAt s w a v = .refused r) :
    aligned w a = true ∧ spanMeetsText s.cfg a (widthBytes w) = true ∧ r = .storeIntoText a := by
  unfold storeAt at h
  split at h
  · cases h
  · split at h
    · cases h; simp_all
    · split at h <;> cases h

/-- What stops an access is what stops the instruction that goes on from it with a next state. -/
theorem settle_fault_iff {α : Type} {x : Access α} {s : State} {k : α → Result} {f : Fault}
    (hk : ∀ a, ∃ t, k a = .next t) : settle x s k = .fault f ↔ x = .fault f := by
  cases x with
  | ok a => obtain ⟨t, ht⟩ := hk a; simp [ht]
  | trap e => simp
  | fault g => simp
  | refused r => simp

theorem settle_refused_iff {α : Type} {x : Access α} {s : State} {k : α → Result} {r : Refusal}
    (hk : ∀ a, ∃ t, k a = .next t) : settle x s k = .refused r ↔ x = .refused r := by
  cases x with
  | ok a => obtain ⟨t, ht⟩ := hk a; simp [ht]
  | trap e => simp
  | fault g => simp
  | refused q => simp

/-- A span clear of `TEXT` holds no byte of it. -/
theorem not_inText_of_span {c : Config} {a : Word} {n k : Nat} (h : spanMeetsText c a n = false) (hk : k < n) :
    inText c (a + BitVec.ofNat 32 k) = false := by
  have := List.any_eq_false.mp h k (List.mem_range.mpr hk)
  simpa using this

/-- A populated span holds only populated bytes. -/
theorem inDomain_of_span {c : Config} {a : Word} {n k : Nat} (h : spanInDomain c a n = true) (hk : k < n) :
    inDomain c (a + BitVec.ofNat 32 k) = true :=
  List.all_eq_true.mp h k (List.mem_range.mpr hk)

theorem populated_iff (s : State) (a : Word) (n : Nat) : Populated s a n ↔ spanInDomain s.cfg a n = true := by
  simp [Populated, spanInDomain]

theorem clear_iff (s : State) (a : Word) (n : Nat) : ClearOfText s a n ↔ spanMeetsText s.cfg a n = false := by
  simp [ClearOfText, spanMeetsText]

/-! ## When a step exists -/

theorem stopped_none_iff (s : State) : stopped s = none ↔ Running s := by
  constructor
  · intro h
    unfold stopped at h
    split at h
    · cases h
    · next hne =>
      split at h
      · cases h
      · next he =>
        refine ⟨fun hm => ?_, he⟩
        cases hf : s.faultMark with
        | none => rfl
        | some m => exact absurd hf (hne m hm)
  · intro ⟨hh, ho⟩
    unfold stopped
    split
    · next m hm hf => exact absurd (hh hm) (by simp [hf])
    · simp [ho]

/-- A step that exists is the fetch, the decoding and the instruction (R13). -/
theorem step_of_running {s : State} (h : Running s) :
    step s = settle (fetchWord s) s fun w => settle (decodeFetched s w) s fun i => exec i s := by
  rw [step, (stopped_none_iff s).mpr h]

/-- The fetch of a state that holds a word at its pc gives that word (R69). -/
theorem fetchWord_of {s : State} {w : Word} (h : FetchesWord s w) : fetchWord s = .ok w := by
  obtain ⟨b0, b1, b2, b3, ⟨h0, h1, h2, h3⟩, hw⟩ := h.bytes
  have ha : aligned .word s.pc = true := by simp [aligned, widthBytes, h.pcAligned]
  simp only [fetchWord, ha, (populated_iff s s.pc 4).mp h.populated, h.text, memRead_word s s.pc h0 h1 h2 h3]
  rw [hw]
  cases s.cfg.endian <;> rfl

end Sys2Proof.Machine
end

