-- ==== Sys2Proof/Laws/Exec.lean ====
section
/-! SUPPORT. What an instruction, and what a step, can do: one inversion lemma for each, from which the invariants
follow. -/

namespace Sys2Proof.Machine

/-- `t` is `s` with at most one general register and the pc changed, and draws taken. -/
def RegisterEffect (s t : State) : Prop :=
  ∃ r v p n, t = { s.writeReg r v with pc := p, draws := s.draws + n }

/-- `t` is `s` with HI and LO changed, the pc advanced and draws taken. -/
def HiLoEffect (s t : State) : Prop :=
  ∃ h l n, t = { s with hi := h, lo := l, pc := s.pc + 4, draws := s.draws + n }

/-- `t` is `s` with one store that passed its checks and the pc advanced. -/
def StoreEffect (s t : State) : Prop :=
  ∃ w a v, t = (memWrite s w a v).advance ∧ aligned w a = true
    ∧ spanMeetsText s.cfg a (widthBytes w) = false ∧ spanInDomain s.cfg a (widthBytes w) = true

theorem finishReg_effect (s : State) (r : Reg) (v : Word) : RegisterEffect s (s.finishReg r v) :=
  ⟨r, v, s.pc + 4, 0, by unfold State.finishReg State.advance State.writeReg; split <;> rfl⟩

theorem drawn_finishReg_effect (s : State) (r : Reg) (v : Word) : RegisterEffect s (s.drawn.finishReg r v) :=
  ⟨r, v, s.pc + 4, 1, by
    unfold State.finishReg State.advance State.writeReg State.drawn; split <;> rfl⟩

theorem jump_effect (s : State) (p : Word) : RegisterEffect s (s.jump p) := ⟨0#5, 0, p, 0, rfl⟩

theorem advance_effect (s : State) : RegisterEffect s s.advance := jump_effect s _

theorem link_effect (s : State) (v p : Word) : RegisterEffect s ((s.writeReg 31 v).jump p) :=
  ⟨31, v, p, 0, rfl⟩

/-! ## What the shared endings mean in the terms of the claims -/

/-- The ending of a one-register instruction writes its register and nothing else. -/
theorem finishReg_wrote (s : State) (r : Reg) (v : Word) : WroteRegister s (s.finishReg r v) r v where
  written := by simp [readReg_finishReg]
  others q hq := by simp [readReg_finishReg, hq]
  hi := by simp
  lo := by simp
  system := ⟨by simp, by simp, by simp, by simp, by simp⟩
  memory a := byteAt_congr (by simp) a
  draws := by simp

/-- An instruction that ends so completes. -/
theorem completes_of_finishReg {i : Instr} {s : State} {r : Reg} {v : Word}
    (h : exec i s = .next (s.finishReg r v)) : CompletesWith i s r v :=
  ⟨_, h, finishReg_wrote s r v, by simp⟩

/-- The same after one draw. -/
theorem drawn_finishReg_wrote (s : State) (r : Reg) (v : Word) :
    WroteRegister s (s.drawn.finishReg r v) r v (taken := 1) where
  written := by simp [readReg_finishReg]
  others q hq := by simp [readReg_finishReg, hq]
  hi := by simp
  lo := by simp
  system := ⟨by simp, by simp, by simp, by simp, by simp⟩
  memory a := byteAt_congr (by simp) a
  draws := by simp

/-- A call writes its link and nothing else but the pc. -/
theorem link_wrote (s : State) (r : Reg) (v p : Word) : WroteRegister s ((s.writeReg r v).jump p) r v where
  written := by simp [readReg_writeReg]
  others q hq := by simp [readReg_writeReg_other s v hq]
  hi := by simp
  lo := by simp
  system := ⟨by simp, by simp, by simp, by simp, by simp⟩
  memory a := byteAt_congr (by simp) a
  draws := by simp

/-- An instruction that ends in trap entry raises its exception. -/
theorem raises_of_trapState {i : Instr} {s : State} {e : Trap} (h : exec i s = .next (trapState e s)) :
    RaisesTrap i s e (trapCode e) (trapAddress e) :=
  ⟨_, h, trapState_entered e s⟩

/-- The ending of a multiply or divide writes HI and LO and nothing else. -/
theorem finishHiLo_wrote (s : State) (h l : Word) : WroteHiLo s (s.writeHiLo h l).advance h l where
  hi := rfl
  lo := rfl
  pc := rfl
  registers _ := rfl
  system := ⟨rfl, rfl, rfl, rfl, rfl⟩
  memory _ := rfl
  draws := rfl

/-- The same after two draws. -/
theorem drawn_finishHiLo_wrote (s : State) (h l : Word) :
    WroteHiLo s (s.drawn.drawn.writeHiLo h l).advance h l (taken := 2) where
  hi := rfl
  lo := rfl
  pc := rfl
  registers _ := rfl
  system := ⟨rfl, rfl, rfl, rfl, rfl⟩
  memory _ := rfl
  draws := rfl

/-- A transfer of control changes the pc and nothing else. -/
theorem jump_went (s : State) (p : Word) : WentTo s (s.jump p) p where
  pc := rfl
  registers _ := rfl
  hi := rfl
  lo := rfl
  system := ⟨rfl, rfl, rfl, rfl, rfl⟩
  memory _ := rfl
  draws := rfl

/-- A store that passed its checks changes its own bytes and the pc and nothing else. -/
theorem memWrite_stored (s : State) (w : Width) (a v : Word) :
    StoredAt s (memWrite s w a v).advance a (widthBytes w) where
  outside b h := byteAt_memWrite_other s w a v b h
  pc := rfl
  registers _ := rfl
  hi := rfl
  lo := rfl
  system := ⟨rfl, rfl, rfl, rfl, rfl⟩
  draws := rfl

/-- The answers of an exact addition or subtraction (R130). -/
theorem writeExact_cases (s : State) (r : Reg) (e : Int) :
    (fitsSigned e = true ∧ writeExact s r e = .next (s.finishReg r (BitVec.ofInt 32 e)))
      ∨ (fitsSigned e = false ∧ writeExact s r e = .next (trapState .overflow s)) := by
  unfold writeExact
  cases h : fitsSigned e
  · exact .inr ⟨rfl, rfl⟩
  · exact .inl ⟨rfl, rfl⟩

theorem writeExact_next {s t : State} {r : Reg} {e : Int} (h : writeExact s r e = .next t) :
    RegisterEffect s t ∨ t = trapState .overflow s := by
  rcases writeExact_cases s r e with ⟨-, h'⟩ | ⟨-, h'⟩
  · rw [h'] at h; cases h; exact .inl (finishReg_effect _ _ _)
  · rw [h'] at h; cases h; exact .inr rfl

theorem execLoad_next {s t : State} {w : Width} {rt rs : Reg} {imm : Imm} (h : execLoad w rt imm rs s = .next t) :
    RegisterEffect s t ∨ t = trapState (.addressErrorLoad (effectiveAddress s rs imm)) s := by
  rcases settle_next h with ⟨v, -, hk⟩ | ⟨e, he, ht⟩
  · cases hk; exact .inl (finishReg_effect _ _ _)
  · exact .inr (by rw [ht, (loadAt_trap he).1])

theorem execStore_next {s t : State} {w : Width} {rt rs : Reg} {imm : Imm} (h : execStore w rt imm rs s = .next t) :
    StoreEffect s t ∨ t = trapState (.addressErrorStore (effectiveAddress s rs imm)) s := by
  rcases settle_next h with ⟨u, hu, hk⟩ | ⟨e, he, ht⟩
  · obtain ⟨rfl, ha, htx, hd⟩ := storeAt_ok hu
    cases hk; exact .inl ⟨w, _, _, rfl, ha, htx, hd⟩
  · exact .inr (by rw [ht, (storeAt_trap he).1])

/-- After a store that was aligned, a load of its width at its address is a plain read of what was stored: the checks that
the store passed are those of the load (R65, R171). -/
theorem execLoad_after_execStore {s t : State} {w : Width} {rt rd rs : Reg} {imm : Imm}
    (h : execStore w rt imm rs s = .next t) (ha : aligned w (effectiveAddress s rs imm) = true) :
    t = (memWrite s w (effectiveAddress s rs imm) (s.readReg rt)).advance
      ∧ execLoad w rd imm rs t
        = settle (memRead t w (effectiveAddress s rs imm)) t fun v => .next (t.finishReg rd v) := by
  rcases settle_next h with ⟨u, hu, hk⟩ | ⟨e, he, ht⟩
  · obtain ⟨rfl, -, -, hd⟩ := storeAt_ok hu
    cases hk
    refine ⟨rfl, ?_⟩
    have hl : loadAt (memWrite s w (effectiveAddress s rs imm) (s.readReg rt)).advance w (effectiveAddress s rs imm)
        = memRead (memWrite s w (effectiveAddress s rs imm) (s.readReg rt)).advance w (effectiveAddress s rs imm) :=
      loadAt_inside ha hd
    exact congrArg (fun x => settle x _ _) hl
  · have := (storeAt_trap he).2
    simp_all

theorem finishHiLo_effect (s : State) (h l : Word) : HiLoEffect s (s.writeHiLo h l).advance :=
  ⟨h, l, 0, rfl⟩

/-- Division leaves HI and LO changed, whether the spec fixes them or not. -/
theorem divide_effect {s t : State} {c : Prop} [Decidable c] {h l : Word}
    (ht : (if c then finishDrawn s else finishHiLo s h l) = .next t) : HiLoEffect s t := by
  split at ht
  · cases ht; exact ⟨_, _, 2, rfl⟩
  · cases ht; exact finishHiLo_effect _ _ _

/-- What an instruction can do. -/
theorem exec_next {i : Instr} {s t : State} (h : exec i s = .next t) :
    (∃ e, t = trapState e s)
      ∨ (RegisterEffect s t ∧ writesHiLo i = false ∧ storesMemory i = false)
      ∨ (HiLoEffect s t ∧ writesHiLo i = true)
      ∨ (StoreEffect s t ∧ storesMemory i = true) := by
  have exact' : ∀ {r e}, writeExact s r e = .next t → writesHiLo i = false → storesMemory i = false →
      (∃ e, t = trapState e s) ∨ (RegisterEffect s t ∧ writesHiLo i = false ∧ storesMemory i = false)
        ∨ (HiLoEffect s t ∧ writesHiLo i = true) ∨ (StoreEffect s t ∧ storesMemory i = true) :=
    fun hx h1 h2 => (writeExact_next hx).elim (fun r => .inr (.inl ⟨r, h1, h2⟩)) fun r => .inl ⟨_, r⟩
  have reg' : RegisterEffect s t → writesHiLo i = false → storesMemory i = false →
      (∃ e, t = trapState e s) ∨ (RegisterEffect s t ∧ writesHiLo i = false ∧ storesMemory i = false)
        ∨ (HiLoEffect s t ∧ writesHiLo i = true) ∨ (StoreEffect s t ∧ storesMemory i = true) :=
    fun r h1 h2 => .inr (.inl ⟨r, h1, h2⟩)
  cases i with
  | add rd rs rt => exact exact' h rfl rfl
  | sub rd rs rt => exact exact' h rfl rfl
  | addi rt rs imm => exact exact' h rfl rfl
  | lw rt imm rs => exact (execLoad_next h).elim (fun r => reg' r rfl rfl) fun r => .inl ⟨_, r⟩
  | lbu rt imm rs => exact (execLoad_next h).elim (fun r => reg' r rfl rfl) fun r => .inl ⟨_, r⟩
  | lhu rt imm rs => exact (execLoad_next h).elim (fun r => reg' r rfl rfl) fun r => .inl ⟨_, r⟩
  | sw rt imm rs => exact (execStore_next h).elim (fun r => .inr (.inr (.inr ⟨r, rfl⟩))) fun r => .inl ⟨_, r⟩
  | sb rt imm rs => exact (execStore_next h).elim (fun r => .inr (.inr (.inr ⟨r, rfl⟩))) fun r => .inl ⟨_, r⟩
  | sh rt imm rs => exact (execStore_next h).elim (fun r => .inr (.inr (.inr ⟨r, rfl⟩))) fun r => .inl ⟨_, r⟩
  | mult rs rt => cases h; exact .inr (.inr (.inl ⟨finishHiLo_effect _ _ _, rfl⟩))
  | multu rs rt => cases h; exact .inr (.inr (.inl ⟨finishHiLo_effect _ _ _, rfl⟩))
  | div rs rt => exact .inr (.inr (.inl ⟨divide_effect h, rfl⟩))
  | divu rs rt => exact .inr (.inr (.inl ⟨divide_effect h, rfl⟩))
  | beq rs rt imm =>
    refine reg' ?_ rfl rfl
    cases h; split
    · exact jump_effect _ _
    · exact advance_effect _
  | bne rs rt imm =>
    refine reg' ?_ rfl rfl
    cases h; split
    · exact jump_effect _ _
    · exact advance_effect _
  | j target => cases h; exact reg' (jump_effect _ _) rfl rfl
  | jr rs => cases h; exact reg' (jump_effect _ _) rfl rfl
  | jal target => cases h; exact reg' (link_effect _ _ _) rfl rfl
  | mfc0 rt rd =>
    refine reg' ?_ rfl rfl
    have h' : execMfc0 rt rd s = .next t := h
    unfold execMfc0 at h'
    split at h'
    · cases h'; exact finishReg_effect _ _ _
    · cases h'; exact drawn_finishReg_effect _ _ _
  | addu rd rs rt => cases h; exact reg' (finishReg_effect _ _ _) rfl rfl
  | subu rd rs rt => cases h; exact reg' (finishReg_effect _ _ _) rfl rfl
  | and rd rs rt => cases h; exact reg' (finishReg_effect _ _ _) rfl rfl
  | or rd rs rt => cases h; exact reg' (finishReg_effect _ _ _) rfl rfl
  | xor rd rs rt => cases h; exact reg' (finishReg_effect _ _ _) rfl rfl
  | nor rd rs rt => cases h; exact reg' (finishReg_effect _ _ _) rfl rfl
  | slt rd rs rt => cases h; exact reg' (finishReg_effect _ _ _) rfl rfl
  | sltu rd rs rt => cases h; exact reg' (finishReg_effect _ _ _) rfl rfl
  | srlv rd rt rs => cases h; exact reg' (finishReg_effect _ _ _) rfl rfl
  | sll rd rt sh => cases h; exact reg' (finishReg_effect _ _ _) rfl rfl
  | srl rd rt sh => cases h; exact reg' (finishReg_effect _ _ _) rfl rfl
  | sra rd rt sh => cases h; exact reg' (finishReg_effect _ _ _) rfl rfl
  | mfhi rd => cases h; exact reg' (finishReg_effect _ _ _) rfl rfl
  | mflo rd => cases h; exact reg' (finishReg_effect _ _ _) rfl rfl
  | addiu rt rs imm => cases h; exact reg' (finishReg_effect _ _ _) rfl rfl
  | slti rt rs imm => cases h; exact reg' (finishReg_effect _ _ _) rfl rfl
  | sltiu rt rs imm => cases h; exact reg' (finishReg_effect _ _ _) rfl rfl
  | andi rt rs imm => cases h; exact reg' (finishReg_effect _ _ _) rfl rfl
  | ori rt rs imm => cases h; exact reg' (finishReg_effect _ _ _) rfl rfl
  | lui rt imm => cases h; exact reg' (finishReg_effect _ _ _) rfl rfl

/-- A next state of a step is an exception's or an instruction's. -/
theorem step_next {s t : State} (h : step s = .next t) :
    Running s ∧ ((∃ e, t = trapState e s) ∨ (∃ i, exec i s = .next t)) := by
  unfold step at h
  split at h
  · cases h
  · next hs =>
    refine ⟨(stopped_none_iff s).mp hs, ?_⟩
    rcases settle_next h with ⟨w, -, hw⟩ | ⟨e, -, he⟩
    · rcases settle_next hw with ⟨i, -, hi⟩ | ⟨e, -, he⟩
      · exact .inr ⟨i, hi⟩
      · exact .inl ⟨e, he⟩
    · exact .inl ⟨e, he⟩

/-- No step takes a draw back: a draw that a step takes has not been taken before (R12, log 10). -/
theorem step_draws {s t : State} (h : step s = .next t) : s.draws ≤ t.draws := by
  obtain ⟨-, ⟨e, rfl⟩ | ⟨i, hi⟩⟩ := step_next h
  · exact Nat.le_refl _
  · rcases exec_next hi with ⟨e, rfl⟩ | ⟨⟨r, v, p, n, rfl⟩, -⟩ | ⟨⟨h, l, n, rfl⟩, -⟩ | ⟨⟨w, a, v, rfl, -⟩, -⟩
    · exact Nat.le_refl _
    · exact Nat.le_add_right _ _
    · exact Nat.le_add_right _ _
    · exact Nat.le_refl _

end Sys2Proof.Machine
end

