-- ==== Sys2Proof/Laws/Launch.lean ====
section
/-! SUPPORT. What the launch of one word gives: a state whose next fetch answers that word (log 15). -/

namespace Sys2Proof.Machine

theorem alignDown_mod (a : Word) : (alignDown a).toNat % 4 = 0 := by
  have h : (alignDown a).toNat % 4 = ((alignDown a).extractLsb' 0 2).toNat := by simp
  have z : (alignDown a).extractLsb' 0 2 = 0#2 := by
    ext i hi
    simp only [alignDown, BitVec.getElem_extractLsb', BitVec.getLsbD_and]
    have : i = 0 ∨ i = 1 := by omega
    rcases this with rfl | rfl <;> simp
  rw [h, z]; rfl

/-- The region of an aligned word holds the word's four bytes. -/
theorem regionHas_word (a : Word) (h : a.toNat % 4 = 0) {k : Nat} (hk : k < 4) :
    regionHas ⟨a.toNat, 4⟩ (a + BitVec.ofNat 32 k).toNat = true := by
  have := a.isLt
  simp only [regionHas, BitVec.toNat_add, BitVec.toNat_ofNat, Bool.and_eq_true, decide_eq_true_eq]
  omega

theorem configForFetch_span (c : Config) (a : Word) (h : a.toNat % 4 = 0) :
    spanInDomain (configForFetch c a) a 4 = true := by
  by_cases hd : spanInDomain c a 4 = true
  · have e : (configForFetch c a).memDomain = c.memDomain := by simp [configForFetch, hd]
    simpa only [spanInDomain, inDomain, e] using hd
  · have e : (configForFetch c a).memDomain = ⟨a.toNat, 4⟩ :: c.memDomain := by simp [configForFetch, hd]
    simp only [spanInDomain, List.all_eq_true, List.mem_range, inDomain, e, regionsHave, List.any_cons, Bool.or_eq_true]
    exact fun k hk => .inl (regionHas_word a h hk)

theorem configForFetch_text (c : Config) (a : Word) (h : a.toNat % 4 = 0) :
    inText (configForFetch c a) a = true := by
  by_cases hd : inText c a = true
  · have e : (configForFetch c a).text = c.text := by simp only [configForFetch, if_pos hd]
    simpa only [inText, e] using hd
  · have e : (configForFetch c a).text = ⟨a.toNat, 4⟩ :: c.text := by simp only [configForFetch, if_neg hd]
    have w : a.toNat / 4 * 4 = a.toNat := by omega
    have r : regionHas ⟨a.toNat, 4⟩ a.toNat = true := by simpa using regionHas_word a h (k := 0) (by decide)
    simp only [inText, e, regionsHave, List.any_cons, w, r, Bool.true_or]

theorem withFetchWord_running (s : State) (w : Nat) : Running (s.withFetchWord 32 w) where
  notHalted h := by
    have h' : s.cfg.trapMode = .halt := h
    simp [State.withFetchWord, placeWord, readyToFetch, h']
  notOver := by
    simp only [State.withFetchWord, placeWord, readyToFetch, configForFetch, memWrite_cfg, memWrite_pc]
    split <;> simp_all

/-- The state with a word placed for the next fetch meets all the conditions of that fetch. -/
theorem withFetchWord_fetches (s : State) (w : Nat) : FetchesWord (s.withFetchWord 32 w) (BitVec.ofNat 32 w) := by
  have hp := alignDown_mod s.pc
  have hw : BitVec.ofNat 32 (w % 2 ^ 32) = BitVec.ofNat 32 w := by
    apply BitVec.eq_of_toNat_eq; simp [BitVec.toNat_ofNat]
  have b : ∀ k < 4, (s.withFetchWord 32 w).byteAt ((s.withFetchWord 32 w).pc + BitVec.ofNat 32 k)
      = some (laneByte (BitVec.ofNat 32 (w % 2 ^ 32)) (lane s.cfg.endian 4 k)) := fun k hk =>
    byteAt_memWrite_same (readyToFetch s) .word (readyToFetch s).pc _ hk
  rw [hw] at b
  refine ⟨withFetchWord_running s w, hp, (populated_iff _ _ _).mpr (configForFetch_span _ _ hp),
    configForFetch_text _ _ hp, _, _, _, _,
    ⟨by simpa using b 0 (by decide), by simpa using b 1 (by decide), by simpa using b 2 (by decide),
      by simpa using b 3 (by decide)⟩, ?_⟩
  have e : (s.withFetchWord 32 w).cfg.endian = s.cfg.endian := rfl
  rw [e]
  cases s.cfg.endian <;>
  · apply BitVec.eq_of_getLsbD_eq
    intro i hi
    simp only [lane, laneByte, BitVec.getLsbD_append, BitVec.getLsbD_extractLsb']
    grind

end Sys2Proof.Machine
end

