-- ==== Sys2Proof/Laws/PerInstr.lean ====
section
/-! SUPPORT. The family TableRow, one lemma per constructor of Instr: the word of an instruction hits the row of
opcode_table.json that has the instruction's mnemonic (R110). -/

namespace Sys2Proof.Laws.TableRow

/-- The encoding of the instruction hits its own row of the table. -/
def Statement (i : Instr) : Prop := ∃ r ∈ opcodeRows, r.mnemonic = mnemonicOf i ∧ r.hits (encode i) = true

end Sys2Proof.Laws.TableRow

namespace Sys2Proof

theorem hits_of_and {r : OpcodeRow} {w : Word} (h : w &&& r.mask = r.pattern) : r.hits w = true := by
  simp [OpcodeRow.hits, h]

/-! The fixed fields of each shape of word, cut out by the row's mask (R103, R107 to R109). -/

theorem mask_three (rs rt rd : Reg) (fn : BitVec 6) :
    rWord rs rt rd 0#5 fn &&& 0xFC0007FF#32 = fn.setWidth 32 := by
  apply BitVec.eq_of_getLsbD_eq
  intro i hi
  simp only [rWord, BitVec.getLsbD_append, BitVec.getLsbD_and]
  interval_cases i <;> simp

theorem mask_shift (rt rd : Reg) (sh : Shamt) (fn : BitVec 6) :
    rWord 0#5 rt rd sh fn &&& 0xFFE0003F#32 = fn.setWidth 32 := by
  apply BitVec.eq_of_getLsbD_eq
  intro i hi
  simp only [rWord, BitVec.getLsbD_append, BitVec.getLsbD_and]
  interval_cases i <;> simp

theorem mask_two (rs rt : Reg) (fn : BitVec 6) :
    rWord rs rt 0#5 0#5 fn &&& 0xFC00FFFF#32 = fn.setWidth 32 := by
  apply BitVec.eq_of_getLsbD_eq
  intro i hi
  simp only [rWord, BitVec.getLsbD_append, BitVec.getLsbD_and]
  interval_cases i <;> simp

theorem mask_move (rd : Reg) (fn : BitVec 6) :
    rWord 0#5 0#5 rd 0#5 fn &&& 0xFFFF07FF#32 = fn.setWidth 32 := by
  apply BitVec.eq_of_getLsbD_eq
  intro i hi
  simp only [rWord, BitVec.getLsbD_append, BitVec.getLsbD_and]
  interval_cases i <;> simp

theorem mask_jr (rs : Reg) (fn : BitVec 6) :
    rWord rs 0#5 0#5 0#5 fn &&& 0xFC1FFFFF#32 = fn.setWidth 32 := by
  apply BitVec.eq_of_getLsbD_eq
  intro i hi
  simp only [rWord, BitVec.getLsbD_append, BitVec.getLsbD_and]
  interval_cases i <;> simp

theorem mask_mfc0 (rt rd : Reg) :
    iWord 0x10#6 0#5 rt (rd ++ 0#11) &&& 0xFFE007FF#32 = 0x40000000#32 := by
  apply BitVec.eq_of_getLsbD_eq
  intro i hi
  simp only [iWord, BitVec.getLsbD_append, BitVec.getLsbD_and]
  interval_cases i <;> simp

theorem mask_imm (op : BitVec 6) (rs rt : Reg) (imm : Imm) :
    iWord op rs rt imm &&& 0xFC000000#32 = op ++ 0#26 := by
  apply BitVec.eq_of_getLsbD_eq
  intro i hi
  simp only [iWord, BitVec.getLsbD_append, BitVec.getLsbD_and]
  interval_cases i <;> simp

theorem mask_lui (rt : Reg) (imm : Imm) :
    iWord 0x0F#6 0#5 rt imm &&& 0xFFE00000#32 = 0x3C000000#32 := by
  apply BitVec.eq_of_getLsbD_eq
  intro i hi
  simp only [iWord, BitVec.getLsbD_append, BitVec.getLsbD_and]
  interval_cases i <;> simp

theorem mask_jump (op : BitVec 6) (target : Addr26) :
    jWord op target &&& 0xFC000000#32 = op ++ 0#26 := by
  apply BitVec.eq_of_getLsbD_eq
  intro i hi
  simp only [jWord, BitVec.getLsbD_append, BitVec.getLsbD_and]
  interval_cases i <;> simp

end Sys2Proof

theorem Sys2Proof.Laws.TableRow.add : ∀ rd rs rt, Sys2Proof.Laws.TableRow.Statement (.add rd rs rt) :=
  fun _ _ _ => ⟨⟨"add", 0x00000020, 0xFC0007FF⟩, by decide, rfl, Sys2Proof.hits_of_and (Sys2Proof.mask_three _ _ _ _)⟩

theorem Sys2Proof.Laws.TableRow.addu : ∀ rd rs rt, Sys2Proof.Laws.TableRow.Statement (.addu rd rs rt) :=
  fun _ _ _ => ⟨⟨"addu", 0x00000021, 0xFC0007FF⟩, by decide, rfl, Sys2Proof.hits_of_and (Sys2Proof.mask_three _ _ _ _)⟩

theorem Sys2Proof.Laws.TableRow.sub : ∀ rd rs rt, Sys2Proof.Laws.TableRow.Statement (.sub rd rs rt) :=
  fun _ _ _ => ⟨⟨"sub", 0x00000022, 0xFC0007FF⟩, by decide, rfl, Sys2Proof.hits_of_and (Sys2Proof.mask_three _ _ _ _)⟩

theorem Sys2Proof.Laws.TableRow.subu : ∀ rd rs rt, Sys2Proof.Laws.TableRow.Statement (.subu rd rs rt) :=
  fun _ _ _ => ⟨⟨"subu", 0x00000023, 0xFC0007FF⟩, by decide, rfl, Sys2Proof.hits_of_and (Sys2Proof.mask_three _ _ _ _)⟩

theorem Sys2Proof.Laws.TableRow.and : ∀ rd rs rt, Sys2Proof.Laws.TableRow.Statement (.and rd rs rt) :=
  fun _ _ _ => ⟨⟨"and", 0x00000024, 0xFC0007FF⟩, by decide, rfl, Sys2Proof.hits_of_and (Sys2Proof.mask_three _ _ _ _)⟩

theorem Sys2Proof.Laws.TableRow.or : ∀ rd rs rt, Sys2Proof.Laws.TableRow.Statement (.or rd rs rt) :=
  fun _ _ _ => ⟨⟨"or", 0x00000025, 0xFC0007FF⟩, by decide, rfl, Sys2Proof.hits_of_and (Sys2Proof.mask_three _ _ _ _)⟩

theorem Sys2Proof.Laws.TableRow.xor : ∀ rd rs rt, Sys2Proof.Laws.TableRow.Statement (.xor rd rs rt) :=
  fun _ _ _ => ⟨⟨"xor", 0x00000026, 0xFC0007FF⟩, by decide, rfl, Sys2Proof.hits_of_and (Sys2Proof.mask_three _ _ _ _)⟩

theorem Sys2Proof.Laws.TableRow.nor : ∀ rd rs rt, Sys2Proof.Laws.TableRow.Statement (.nor rd rs rt) :=
  fun _ _ _ => ⟨⟨"nor", 0x00000027, 0xFC0007FF⟩, by decide, rfl, Sys2Proof.hits_of_and (Sys2Proof.mask_three _ _ _ _)⟩

theorem Sys2Proof.Laws.TableRow.slt : ∀ rd rs rt, Sys2Proof.Laws.TableRow.Statement (.slt rd rs rt) :=
  fun _ _ _ => ⟨⟨"slt", 0x0000002A, 0xFC0007FF⟩, by decide, rfl, Sys2Proof.hits_of_and (Sys2Proof.mask_three _ _ _ _)⟩

theorem Sys2Proof.Laws.TableRow.sltu : ∀ rd rs rt, Sys2Proof.Laws.TableRow.Statement (.sltu rd rs rt) :=
  fun _ _ _ => ⟨⟨"sltu", 0x0000002B, 0xFC0007FF⟩, by decide, rfl, Sys2Proof.hits_of_and (Sys2Proof.mask_three _ _ _ _)⟩

theorem Sys2Proof.Laws.TableRow.srlv : ∀ rd rt rs, Sys2Proof.Laws.TableRow.Statement (.srlv rd rt rs) :=
  fun _ _ _ => ⟨⟨"srlv", 0x00000006, 0xFC0007FF⟩, by decide, rfl, Sys2Proof.hits_of_and (Sys2Proof.mask_three _ _ _ _)⟩

theorem Sys2Proof.Laws.TableRow.sll : ∀ rd rt shamt, Sys2Proof.Laws.TableRow.Statement (.sll rd rt shamt) :=
  fun _ _ _ => ⟨⟨"sll", 0x00000000, 0xFFE0003F⟩, by decide, rfl, Sys2Proof.hits_of_and (Sys2Proof.mask_shift _ _ _ _)⟩

theorem Sys2Proof.Laws.TableRow.srl : ∀ rd rt shamt, Sys2Proof.Laws.TableRow.Statement (.srl rd rt shamt) :=
  fun _ _ _ => ⟨⟨"srl", 0x00000002, 0xFFE0003F⟩, by decide, rfl, Sys2Proof.hits_of_and (Sys2Proof.mask_shift _ _ _ _)⟩

theorem Sys2Proof.Laws.TableRow.sra : ∀ rd rt shamt, Sys2Proof.Laws.TableRow.Statement (.sra rd rt shamt) :=
  fun _ _ _ => ⟨⟨"sra", 0x00000003, 0xFFE0003F⟩, by decide, rfl, Sys2Proof.hits_of_and (Sys2Proof.mask_shift _ _ _ _)⟩

theorem Sys2Proof.Laws.TableRow.mult : ∀ rs rt, Sys2Proof.Laws.TableRow.Statement (.mult rs rt) :=
  fun _ _ => ⟨⟨"mult", 0x00000018, 0xFC00FFFF⟩, by decide, rfl, Sys2Proof.hits_of_and (Sys2Proof.mask_two _ _ _)⟩

theorem Sys2Proof.Laws.TableRow.multu : ∀ rs rt, Sys2Proof.Laws.TableRow.Statement (.multu rs rt) :=
  fun _ _ => ⟨⟨"multu", 0x00000019, 0xFC00FFFF⟩, by decide, rfl, Sys2Proof.hits_of_and (Sys2Proof.mask_two _ _ _)⟩

theorem Sys2Proof.Laws.TableRow.div : ∀ rs rt, Sys2Proof.Laws.TableRow.Statement (.div rs rt) :=
  fun _ _ => ⟨⟨"div", 0x0000001A, 0xFC00FFFF⟩, by decide, rfl, Sys2Proof.hits_of_and (Sys2Proof.mask_two _ _ _)⟩

theorem Sys2Proof.Laws.TableRow.divu : ∀ rs rt, Sys2Proof.Laws.TableRow.Statement (.divu rs rt) :=
  fun _ _ => ⟨⟨"divu", 0x0000001B, 0xFC00FFFF⟩, by decide, rfl, Sys2Proof.hits_of_and (Sys2Proof.mask_two _ _ _)⟩

theorem Sys2Proof.Laws.TableRow.mfhi : ∀ rd, Sys2Proof.Laws.TableRow.Statement (.mfhi rd) :=
  fun _ => ⟨⟨"mfhi", 0x00000010, 0xFFFF07FF⟩, by decide, rfl, Sys2Proof.hits_of_and (Sys2Proof.mask_move _ _)⟩

theorem Sys2Proof.Laws.TableRow.mflo : ∀ rd, Sys2Proof.Laws.TableRow.Statement (.mflo rd) :=
  fun _ => ⟨⟨"mflo", 0x00000012, 0xFFFF07FF⟩, by decide, rfl, Sys2Proof.hits_of_and (Sys2Proof.mask_move _ _)⟩

theorem Sys2Proof.Laws.TableRow.jr : ∀ rs, Sys2Proof.Laws.TableRow.Statement (.jr rs) :=
  fun _ => ⟨⟨"jr", 0x00000008, 0xFC1FFFFF⟩, by decide, rfl, Sys2Proof.hits_of_and (Sys2Proof.mask_jr _ _)⟩

theorem Sys2Proof.Laws.TableRow.mfc0 : ∀ rt rd, Sys2Proof.Laws.TableRow.Statement (.mfc0 rt rd) :=
  fun _ _ => ⟨⟨"mfc0", 0x40000000, 0xFFE007FF⟩, by decide, rfl, Sys2Proof.hits_of_and (Sys2Proof.mask_mfc0 _ _)⟩

theorem Sys2Proof.Laws.TableRow.addi : ∀ rt rs imm, Sys2Proof.Laws.TableRow.Statement (.addi rt rs imm) :=
  fun _ _ _ => ⟨⟨"addi", 0x20000000, 0xFC000000⟩, by decide, rfl, Sys2Proof.hits_of_and (Sys2Proof.mask_imm _ _ _ _)⟩

theorem Sys2Proof.Laws.TableRow.addiu : ∀ rt rs imm, Sys2Proof.Laws.TableRow.Statement (.addiu rt rs imm) :=
  fun _ _ _ => ⟨⟨"addiu", 0x24000000, 0xFC000000⟩, by decide, rfl, Sys2Proof.hits_of_and (Sys2Proof.mask_imm _ _ _ _)⟩

theorem Sys2Proof.Laws.TableRow.slti : ∀ rt rs imm, Sys2Proof.Laws.TableRow.Statement (.slti rt rs imm) :=
  fun _ _ _ => ⟨⟨"slti", 0x28000000, 0xFC000000⟩, by decide, rfl, Sys2Proof.hits_of_and (Sys2Proof.mask_imm _ _ _ _)⟩

theorem Sys2Proof.Laws.TableRow.sltiu : ∀ rt rs imm, Sys2Proof.Laws.TableRow.Statement (.sltiu rt rs imm) :=
  fun _ _ _ => ⟨⟨"sltiu", 0x2C000000, 0xFC000000⟩, by decide, rfl, Sys2Proof.hits_of_and (Sys2Proof.mask_imm _ _ _ _)⟩

theorem Sys2Proof.Laws.TableRow.andi : ∀ rt rs imm, Sys2Proof.Laws.TableRow.Statement (.andi rt rs imm) :=
  fun _ _ _ => ⟨⟨"andi", 0x30000000, 0xFC000000⟩, by decide, rfl, Sys2Proof.hits_of_and (Sys2Proof.mask_imm _ _ _ _)⟩

theorem Sys2Proof.Laws.TableRow.ori : ∀ rt rs imm, Sys2Proof.Laws.TableRow.Statement (.ori rt rs imm) :=
  fun _ _ _ => ⟨⟨"ori", 0x34000000, 0xFC000000⟩, by decide, rfl, Sys2Proof.hits_of_and (Sys2Proof.mask_imm _ _ _ _)⟩

theorem Sys2Proof.Laws.TableRow.beq : ∀ rs rt imm, Sys2Proof.Laws.TableRow.Statement (.beq rs rt imm) :=
  fun _ _ _ => ⟨⟨"beq", 0x10000000, 0xFC000000⟩, by decide, rfl, Sys2Proof.hits_of_and (Sys2Proof.mask_imm _ _ _ _)⟩

theorem Sys2Proof.Laws.TableRow.bne : ∀ rs rt imm, Sys2Proof.Laws.TableRow.Statement (.bne rs rt imm) :=
  fun _ _ _ => ⟨⟨"bne", 0x14000000, 0xFC000000⟩, by decide, rfl, Sys2Proof.hits_of_and (Sys2Proof.mask_imm _ _ _ _)⟩

theorem Sys2Proof.Laws.TableRow.lw : ∀ rt imm rs, Sys2Proof.Laws.TableRow.Statement (.lw rt imm rs) :=
  fun _ _ _ => ⟨⟨"lw", 0x8C000000, 0xFC000000⟩, by decide, rfl, Sys2Proof.hits_of_and (Sys2Proof.mask_imm _ _ _ _)⟩

theorem Sys2Proof.Laws.TableRow.lbu : ∀ rt imm rs, Sys2Proof.Laws.TableRow.Statement (.lbu rt imm rs) :=
  fun _ _ _ => ⟨⟨"lbu", 0x90000000, 0xFC000000⟩, by decide, rfl, Sys2Proof.hits_of_and (Sys2Proof.mask_imm _ _ _ _)⟩

theorem Sys2Proof.Laws.TableRow.lhu : ∀ rt imm rs, Sys2Proof.Laws.TableRow.Statement (.lhu rt imm rs) :=
  fun _ _ _ => ⟨⟨"lhu", 0x94000000, 0xFC000000⟩, by decide, rfl, Sys2Proof.hits_of_and (Sys2Proof.mask_imm _ _ _ _)⟩

theorem Sys2Proof.Laws.TableRow.sb : ∀ rt imm rs, Sys2Proof.Laws.TableRow.Statement (.sb rt imm rs) :=
  fun _ _ _ => ⟨⟨"sb", 0xA0000000, 0xFC000000⟩, by decide, rfl, Sys2Proof.hits_of_and (Sys2Proof.mask_imm _ _ _ _)⟩

theorem Sys2Proof.Laws.TableRow.sh : ∀ rt imm rs, Sys2Proof.Laws.TableRow.Statement (.sh rt imm rs) :=
  fun _ _ _ => ⟨⟨"sh", 0xA4000000, 0xFC000000⟩, by decide, rfl, Sys2Proof.hits_of_and (Sys2Proof.mask_imm _ _ _ _)⟩

theorem Sys2Proof.Laws.TableRow.sw : ∀ rt imm rs, Sys2Proof.Laws.TableRow.Statement (.sw rt imm rs) :=
  fun _ _ _ => ⟨⟨"sw", 0xAC000000, 0xFC000000⟩, by decide, rfl, Sys2Proof.hits_of_and (Sys2Proof.mask_imm _ _ _ _)⟩

theorem Sys2Proof.Laws.TableRow.lui : ∀ rt imm, Sys2Proof.Laws.TableRow.Statement (.lui rt imm) :=
  fun _ _ => ⟨⟨"lui", 0x3C000000, 0xFFE00000⟩, by decide, rfl, Sys2Proof.hits_of_and (Sys2Proof.mask_lui _ _)⟩

theorem Sys2Proof.Laws.TableRow.j : ∀ target, Sys2Proof.Laws.TableRow.Statement (.j target) :=
  fun _ => ⟨⟨"j", 0x08000000, 0xFC000000⟩, by decide, rfl, Sys2Proof.hits_of_and (Sys2Proof.mask_jump _ _)⟩

theorem Sys2Proof.Laws.TableRow.jal : ∀ target, Sys2Proof.Laws.TableRow.Statement (.jal target) :=
  fun _ => ⟨⟨"jal", 0x0C000000, 0xFC000000⟩, by decide, rfl, Sys2Proof.hits_of_and (Sys2Proof.mask_jump _ _)⟩
end

