-- ==== Sys2Proof/Machine/Assembler.lean ====
section
/-! DEFINITION. The assembler's side of the spec: register names (R32), the written order of operands (R102, R103), the
fields that stand for a label (R99, R100), and the pseudo-instructions (R106). The machine runs words: no meaning uses this
file. -/

namespace Sys2Proof.Machine

/-- The names of R32, in the order of the register numbers. -/
def regNames : List String :=
  ["$zero", "$at", "$v0", "$v1", "$a0", "$a1", "$a2", "$a3", "$t0", "$t1", "$t2", "$t3", "$t4", "$t5", "$t6", "$t7",
   "$s0", "$s1", "$s2", "$s3", "$s4", "$s5", "$s6", "$s7", "$t8", "$t9", "$k0", "$k1", "$gp", "$sp", "$fp", "$ra"]

/-- The name of a register (R32). -/
def regName (r : Reg) : String := regNames.getD r.toNat ""

/-- One operand as written (R102). -/
inductive Operand where
  | reg (r : Reg)
  | shamt (n : Shamt)
  | const (imm : Imm)
  /-- `offset(rs)` (R102, R105). -/
  | based (offset : Imm) (base : Reg)
  /-- A branch label, as its field (R99). -/
  | branchLabel (imm : Imm)
  /-- A jump label, as its field (R100). -/
  | jumpLabel (target : Addr26)
  /-- A coprocessor-0 register number (R200). -/
  | cop0 (r : Reg)
  deriving DecidableEq, Repr

/-- The operands in the order the assembler writes them (R103). -/
def operandsOf : Instr → List Operand
  | .add rd rs rt => [.reg rd, .reg rs, .reg rt]
  | .addu rd rs rt => [.reg rd, .reg rs, .reg rt]
  | .sub rd rs rt => [.reg rd, .reg rs, .reg rt]
  | .subu rd rs rt => [.reg rd, .reg rs, .reg rt]
  | .and rd rs rt => [.reg rd, .reg rs, .reg rt]
  | .or rd rs rt => [.reg rd, .reg rs, .reg rt]
  | .xor rd rs rt => [.reg rd, .reg rs, .reg rt]
  | .nor rd rs rt => [.reg rd, .reg rs, .reg rt]
  | .slt rd rs rt => [.reg rd, .reg rs, .reg rt]
  | .sltu rd rs rt => [.reg rd, .reg rs, .reg rt]
  | .srlv rd rt rs => [.reg rd, .reg rt, .reg rs]
  | .sll rd rt sh => [.reg rd, .reg rt, .shamt sh]
  | .srl rd rt sh => [.reg rd, .reg rt, .shamt sh]
  | .sra rd rt sh => [.reg rd, .reg rt, .shamt sh]
  | .mult rs rt => [.reg rs, .reg rt]
  | .multu rs rt => [.reg rs, .reg rt]
  | .div rs rt => [.reg rs, .reg rt]
  | .divu rs rt => [.reg rs, .reg rt]
  | .mfhi rd => [.reg rd]
  | .mflo rd => [.reg rd]
  | .jr rs => [.reg rs]
  | .mfc0 rt rd => [.reg rt, .cop0 rd]
  | .addi rt rs imm => [.reg rt, .reg rs, .const imm]
  | .addiu rt rs imm => [.reg rt, .reg rs, .const imm]
  | .slti rt rs imm => [.reg rt, .reg rs, .const imm]
  | .sltiu rt rs imm => [.reg rt, .reg rs, .const imm]
  | .andi rt rs imm => [.reg rt, .reg rs, .const imm]
  | .ori rt rs imm => [.reg rt, .reg rs, .const imm]
  | .beq rs rt imm => [.reg rs, .reg rt, .branchLabel imm]
  | .bne rs rt imm => [.reg rs, .reg rt, .branchLabel imm]
  | .lw rt imm rs => [.reg rt, .based imm rs]
  | .lbu rt imm rs => [.reg rt, .based imm rs]
  | .lhu rt imm rs => [.reg rt, .based imm rs]
  | .sb rt imm rs => [.reg rt, .based imm rs]
  | .sh rt imm rs => [.reg rt, .based imm rs]
  | .sw rt imm rs => [.reg rt, .based imm rs]
  | .lui rt imm => [.reg rt, .const imm]
  | .j target => [.jumpLabel target]
  | .jal target => [.jumpLabel target]

/-- The field of a branch at `pc` to the label's address, `(addr - (pc + 4)) / 4`, where that is an integer in
-32768..32767 (R99). -/
def branchField (pc label : Word) : Option Imm :=
  let d := (label - (pc + 4)).toInt
  if d % 4 = 0 ∧ -32768 ≤ d / 4 ∧ d / 4 ≤ 32767 then some (BitVec.ofInt 16 (d / 4)) else none

/-- The field of a jump at `pc` to the label's address, `addr[27:2]`, where the address is a word's and lies in the jump's
own region (R100). -/
def jumpField (pc label : Word) : Option Addr26 :=
  if label.extractLsb' 0 2 = 0#2 ∧ label.extractLsb' 28 4 = pc.extractLsb' 28 4 then some (label.extractLsb' 2 26)
  else none

/-- The pseudo-instructions of R106. A branch takes its field, that of the branch instruction it ends in. -/
inductive Pseudo where
  | nop
  | move (rd rs : Reg)
  /-- `li` with a constant in -32768..32767. -/
  | liSigned (rt : Reg) (imm : Imm)
  /-- `li` with a constant in 0..65535. -/
  | liUnsigned (rt : Reg) (imm : Imm)
  /-- `li` with any other constant; `la` with the address of a label. -/
  | liWord (rt : Reg) (v : Word)
  | not (rd rs : Reg)
  | blt (rs rt : Reg) (imm : Imm)
  | bge (rs rt : Reg) (imm : Imm)
  | bgt (rs rt : Reg) (imm : Imm)
  | ble (rs rt : Reg) (imm : Imm)
  | b (imm : Imm)
  deriving DecidableEq, Repr

/-- `$at`, the assembler's own register (R32). -/
def atReg : Reg := 1

/-- The expansion of a pseudo-instruction (R106). -/
def expand : Pseudo → List Instr
  | .nop => [.sll 0 0 0]
  | .move rd rs => [.addu rd 0 rs]
  | .liSigned rt imm => [.addiu rt 0 imm]
  | .liUnsigned rt imm => [.ori rt 0 imm]
  | .liWord rt v => [.lui atReg (v.extractLsb' 16 16), .ori rt atReg (v.extractLsb' 0 16)]
  | .not rd rs => [.nor rd rs 0]
  | .blt rs rt imm => [.slt atReg rs rt, .bne atReg 0 imm]
  | .bge rs rt imm => [.slt atReg rs rt, .beq atReg 0 imm]
  | .bgt rs rt imm => [.slt atReg rt rs, .bne atReg 0 imm]
  | .ble rs rt imm => [.slt atReg rt rs, .beq atReg 0 imm]
  | .b imm => [.beq 0 0 imm]

end Sys2Proof.Machine
end

