-- ==== Sys2Proof/Tests/Slice0.lean ====
section
/-! SUPPORT. Tests: expected values come from spec/95_test_vectors.md or, where it has none, from the rule cited beside
them; and for each statement with hypotheses, a witness that meets them. -/

namespace Sys2Proof.Tests

open Sys2Proof.Machine

/-! ## Small states -/

/-- The launch parameters of 95_test_vectors.md, with 512 bytes of text. -/
def config (e : Endian) : Config where
  endian := e
  memDomain := [⟨0x00400000, 0x200⟩, ⟨0x10010000, 16⟩]
  text := [⟨0x00400000, 0x200⟩]
  resetPc := 0x00400000
  endPc := none
  trapMode := .halt
  excVector := 0x00400020
  strictZeroFields := true

/-- The same in mode vector. -/
def configVector : Config := { config .little with trapMode := .vector }

/-- The eight data bytes of 95_test_vectors.md section 2.5. -/
def image : List (Word × Byte) :=
  [(0x10010000, 0x80), (0x10010001, 0x91), (0x10010002, 0xA2), (0x10010003, 0xB3),
   (0x10010004, 0xC4), (0x10010005, 0xD5), (0x10010006, 0xE6), (0x10010007, 0xF7)]

/-- A launch at pc 0x00400100 with the data bytes and some registers. -/
def startIn (c : Config) (regs : List (Reg × Word)) : State :=
  State.launch ⟨c, 0x00400100, image, regs, none, none, none⟩

def start (regs : List (Reg × Word)) : State := startIn (config .little) regs

def startBig (regs : List (Reg × Word)) : State := startIn (config .big) regs

/-! What a test looks at in an outcome. -/

def look {α : Type} (f : State → α) : Result → Option α
  | .next t => some (f t)
  | _ => none

def reg (r : Reg) : Result → Option Word := look fun t => t.readReg r

def pcOf : Result → Option Word := look fun t => t.pc

def hiLo : Result → Option (Word × Word) := look fun t => (t.hi, t.lo)

/-- The four bytes at 0x10010000. -/
def bytes : Result → Option (List (Option Byte)) :=
  look fun t => [t.byteAt 0x10010000, t.byteAt 0x10010001, t.byteAt 0x10010002, t.byteAt 0x10010003]

/-- EPC, CauseCode and BadVAddr after trap entry. -/
def trapped : Result → Option (Word × BitVec 5 × Word) :=
  look fun t => (t.epc, t.causeCode, t.badVAddr)

def isNext : Result → Bool
  | .next _ => true
  | _ => false

def faultOf : Result → Option Fault
  | .fault f => some f
  | _ => none

def refusalOf : Result → Option Refusal
  | .refused r => some r
  | _ => none

theorem exists_of_isNext {x : Result} (h : isNext x = true) : ∃ t, x = .next t := by
  cases x with
  | next t => exact ⟨t, rfl⟩
  | fault f => cases h
  | refused r => cases h

/-! ## Well-formedness: an ill-formed term for each check (R6, R60, R240, R241) -/

theorem test_wf_default : defaultConfig.wf = true ∧ (config .big).wf = true ∧ configVector.wf = true := by decide

theorem test_wf_domain_beyond_32_bits : { defaultConfig with memDomain := [⟨1, 0x100000000⟩] }.wf = false := by decide

theorem test_wf_text_beyond_32_bits :
    { defaultConfig with text := [⟨0xBFC00000, 4⟩, ⟨0xFFFFFFFF, 2⟩] }.wf = false := by decide

theorem test_wf_reset_misaligned : { defaultConfig with resetPc := 0xBFC00002 }.wf = false := by decide

theorem test_wf_reset_outside_text : { defaultConfig with resetPc := 0xBFC00004 }.wf = false := by decide

theorem test_wf_vector_misaligned : { defaultConfig with excVector := 0x80000081 }.wf = false := by decide

theorem test_wf_vector_outside_text : { configVector with excVector := 0x80000080 }.wf = false := by decide

/-! ## Decoding: a word of the spec for every constructor (95_test_vectors.md, sections 1.3 and 2) -/

theorem test_decode_arithmetic :
    decode true 0x00430820 = .ok (.add 1 2 3) ∧ decode true 0x00430821 = .ok (.addu 1 2 3)
      ∧ decode true 0x00430822 = .ok (.sub 1 2 3) ∧ decode true 0x00430823 = .ok (.subu 1 2 3)
      ∧ decode true 0x20410064 = .ok (.addi 1 2 100) ∧ decode true 0x24410064 = .ok (.addiu 1 2 100) := by decide

theorem test_decode_logical :
    decode true 0x00430824 = .ok (.and 1 2 3) ∧ decode true 0x00430825 = .ok (.or 1 2 3)
      ∧ decode true 0x00430826 = .ok (.xor 1 2 3) ∧ decode true 0x00430827 = .ok (.nor 1 2 3)
      ∧ decode true 0x3041FFFF = .ok (.andi 1 2 0xFFFF) ∧ decode true 0x34418000 = .ok (.ori 1 2 0x8000) := by decide

theorem test_decode_shift :
    decode true 0x00020A80 = .ok (.sll 1 2 10) ∧ decode true 0x00020A82 = .ok (.srl 1 2 10)
      ∧ decode true 0x00020903 = .ok (.sra 1 2 4) ∧ decode true 0x01220806 = .ok (.srlv 1 2 9) := by decide

theorem test_decode_multiply_divide :
    decode true 0x00430018 = .ok (.mult 2 3) ∧ decode true 0x00430019 = .ok (.multu 2 3)
      ∧ decode true 0x0043001A = .ok (.div 2 3) ∧ decode true 0x0043001B = .ok (.divu 2 3)
      ∧ decode true 0x00000810 = .ok (.mfhi 1) ∧ decode true 0x00000812 = .ok (.mflo 1) := by decide

theorem test_decode_data_transfer :
    decode true 0x8C41FFFC = .ok (.lw 1 0xFFFC 2) ∧ decode true 0x90410003 = .ok (.lbu 1 3 2)
      ∧ decode true 0x94410006 = .ok (.lhu 1 6 2) ∧ decode true 0xA0410001 = .ok (.sb 1 1 2)
      ∧ decode true 0xA4410002 = .ok (.sh 1 2 2) ∧ decode true 0xAC410064 = .ok (.sw 1 100 2)
      ∧ decode true 0x3C010064 = .ok (.lui 1 100) := by decide

theorem test_decode_program_control :
    decode true 0x10220019 = .ok (.beq 1 2 25) ∧ decode true 0x1422FFFE = .ok (.bne 1 2 0xFFFE)
      ∧ decode true 0x0043082A = .ok (.slt 1 2 3) ∧ decode true 0x28410064 = .ok (.slti 1 2 100)
      ∧ decode true 0x0043082B = .ok (.sltu 1 2 3) ∧ decode true 0x2C410064 = .ok (.sltiu 1 2 100)
      ∧ decode true 0x0BFFFFFF = .ok (.j 0x3FFFFFF) ∧ decode true 0x0C0009C4 = .ok (.jal 0x9C4)
      ∧ decode true 0x03E00008 = .ok (.jr 31) := by decide

theorem test_decode_coprocessor0 :
    decode true 0x40017000 = .ok (.mfc0 1 14) ∧ decode true 0x40016000 = .ok (.mfc0 1 12) := by decide

/-- The reserved words of section 2.8. -/
theorem test_decode_reserved :
    decode true 0x0000000C = .error (.reservedFunct 0x0C) ∧ decode true 0x0000000D = .error (.reservedFunct 0x0D)
      ∧ decode true 0x00000004 = .error (.reservedFunct 0x04) ∧ decode true 0x00000009 = .error (.reservedFunct 0x09)
      ∧ decode true 0x80410064 = .error (.reservedOpcode 0x20) ∧ decode true 0x38410064 = .error (.reservedOpcode 0x0E)
      ∧ decode true 0x04400000 = .error (.reservedOpcode 0x01) ∧ decode true 0x44000000 = .error (.reservedOpcode 0x11)
      ∧ decode true 0xFFFFFFFF = .error (.reservedOpcode 0x3F) := by decide

/-- Opcode 0x10 is strict in either setting (R109, section 2.8). -/
theorem test_decode_reserved_cop0 :
    decode true 0x40817000 = .error .reservedCop0 ∧ decode false 0x42000010 = .error .reservedCop0
      ∧ decode false 0x40017001 = .error .reservedCop0 := by decide

/-- The words with a field not zero, strict and not (section 2.8). -/
theorem test_decode_zero_fields :
    decode true 0x00430860 = .error .nonzeroField ∧ decode false 0x00430860 = .ok (.add 1 2 3)
      ∧ decode true 0x00220A80 = .error .nonzeroField ∧ decode false 0x00220A80 = .ok (.sll 1 2 10)
      ∧ decode true 0x00430818 = .error .nonzeroField ∧ decode false 0x00430818 = .ok (.mult 2 3)
      ∧ decode true 0x3C210064 = .error .nonzeroField ∧ decode false 0x3C210064 = .ok (.lui 1 100)
      ∧ decode true 0x03E10008 = .error .nonzeroField ∧ decode false 0x03E10008 = .ok (.jr 31) := by decide

/-- The bytes of a word in either order (R65), and a decoding that hands on the rest. -/
theorem test_decode_bytes :
    decodeBytes .little true [0x20, 0x08, 0x43, 0x00, 0xFF] = .ok (.add 1 2 3, [0xFF])
      ∧ decodeBytes .big true [0x00, 0x43, 0x08, 0x20] = .ok (.add 1 2 3, [])
      ∧ decodeBytes .little true [0x20, 0x08, 0x43] = .error .truncated := by decide

theorem test_decode_table_word :
    decodeTableWord 32 0x40017000 = some (.mfc0 1 14) ∧ decodeTableWord 32 0x0000000C = none := by decide

/-! ## Arithmetic (section 2.1) -/

theorem test_add : reg 1 (exec (.add 1 2 3) (start [(2, 0x80000000), (3, 1)])) = some 0x80000001 := by decide

/-- A destination of register 0 does not suppress the exception. -/
theorem test_add_overflow :
    trapped (exec (.add 0 2 2) (start [(2, 0x7FFFFFFF)])) = some (0x00400100, 12, 0) := by decide

theorem test_addu : reg 1 (exec (.addu 1 2 3) (start [(2, 0x80000000), (3, 0x80000000)])) = some 0 := by decide

theorem test_sub : reg 1 (exec (.sub 1 2 3) (start [(2, 5), (3, 7)])) = some 0xFFFFFFFE := by decide

theorem test_sub_overflow :
    trapped (exec (.sub 1 2 3) (start [(3, 0x80000000)])) = some (0x00400100, 12, 0) := by decide

theorem test_subu : reg 1 (exec (.subu 1 2 3) (start [(2, 0x7FFFFFFF), (3, 0xFFFFFFFF)])) = some 0x80000000 := by decide

theorem test_addi : reg 1 (exec (.addi 1 2 0x8000) (start [])) = some 0xFFFF8000 := by decide

theorem test_addi_overflow :
    look (fun t => (t.causeCode, t.readReg 1)) (exec (.addi 1 2 0xFFFF) (start [(1, 9), (2, 0x80000000)]))
      = some (12, 9) := by decide

theorem test_addiu : reg 1 (exec (.addiu 1 2 0xFFFF) (start [])) = some 0xFFFFFFFF := by decide

/-! ## Logical (section 2.2) -/

theorem test_and : reg 1 (exec (.and 1 2 3) (start [(2, 0x0000FF0F), (3, 0x00F0F0FF)])) = some 0x0000F00F := by decide

theorem test_or : reg 1 (exec (.or 1 2 3) (start [(2, 0x0000FF0F), (3, 0x00F0F0FF)])) = some 0x00F0FFFF := by decide

theorem test_xor : reg 1 (exec (.xor 1 2 3) (start [(2, 0x0000FF0F), (3, 0x00F0F0FF)])) = some 0x00F00FF0 := by decide

theorem test_nor : reg 1 (exec (.nor 1 2 3) (start [(2, 0x0000FF0F), (3, 0x00F0F0FF)])) = some 0xFF0F0000 := by decide

theorem test_andi : reg 1 (exec (.andi 1 2 0xFFFF) (start [(2, 0xFFFFFFFF)])) = some 0x0000FFFF := by decide

theorem test_ori : reg 1 (exec (.ori 1 2 0x8000) (start [])) = some 0x00008000 := by decide

/-! ## Shifts (section 2.3) -/

theorem test_sll : reg 1 (exec (.sll 1 2 10) (start [(2, 0x80000010)])) = some 0x00004000 := by decide

theorem test_srl : reg 1 (exec (.srl 1 2 31) (start [(2, 0xF0000000)])) = some 1 := by decide

theorem test_sra : reg 1 (exec (.sra 1 2 10) (start [(2, 0x80000010)])) = some 0xFFE00000 := by decide

theorem test_srlv : reg 1 (exec (.srlv 1 2 9) (start [(2, 0xF0000000), (9, 0x24)])) = some 0x0F000000 := by decide

theorem test_srlv_by_32 : reg 1 (exec (.srlv 1 2 9) (start [(2, 0xF0000000), (9, 0x20)])) = some 0xF0000000 := by decide

/-! ## Multiply and divide (section 2.4) -/

theorem test_mult :
    hiLo (exec (.mult 2 3) (start [(2, 7), (3, 0xFFFFFFFD)])) = some (0xFFFFFFFF, 0xFFFFFFEB) := by decide

theorem test_multu :
    hiLo (exec (.multu 2 3) (start [(2, 7), (3, 0xFFFFFFFD)])) = some (0x00000006, 0xFFFFFFEB) := by decide

theorem test_div :
    hiLo (exec (.div 2 3) (start [(2, 0xFFFFFFF9), (3, 3)])) = some (0xFFFFFFFF, 0xFFFFFFFE) := by decide

/-- By zero it completes and raises nothing (U1). -/
theorem test_div_open :
    look (fun t => (t.pc, t.faultMark)) (exec (.div 2 3) (start [(2, 5)])) = some (0x00400104, none) := by decide

theorem test_divu :
    hiLo (exec (.divu 2 3) (start [(2, 0x80000000), (3, 0xFFFFFFFF)])) = some (0x80000000, 0) := by decide

theorem test_mfhi : reg 1 (exec (.mfhi 1) { start [] with hi := 6, lo := 7 }) = some 6 := by decide

theorem test_mflo : reg 1 (exec (.mflo 1) { start [] with hi := 6, lo := 7 }) = some 7 := by decide

/-! ## Data transfer (section 2.5) -/

theorem test_lw :
    reg 1 (exec (.lw 1 0 2) (start [(2, 0x10010000)])) = some 0xB3A29180
      ∧ reg 1 (exec (.lw 1 4 2) (startBig [(2, 0x10010000)])) = some 0xC4D5E6F7 := by decide

theorem test_lw_misaligned :
    trapped (exec (.lw 1 2 2) (start [(2, 0x10010000)])) = some (0x00400100, 4, 0x10010002) := by decide

theorem test_lhu :
    reg 1 (exec (.lhu 1 6 2) (start [(2, 0x10010000)])) = some 0x0000F7E6
      ∧ reg 1 (exec (.lhu 1 6 2) (startBig [(2, 0x10010000)])) = some 0x0000E6F7 := by decide

theorem test_lbu : reg 1 (exec (.lbu 1 3 2) (startBig [(2, 0x10010000)])) = some 0x000000B3 := by decide

/-- The address wraps to 4, which is not populated. -/
theorem test_lw_wraps :
    faultOf (exec (.lw 1 8 2) (start [(2, 0xFFFFFFFC)])) = some (.outsideMemory 4) := by decide

theorem test_sw :
    bytes (exec (.sw 1 0 2) (startBig [(1, 0x11223344), (2, 0x10010000)]))
      = some [some 0x11, some 0x22, some 0x33, some 0x44] := by decide

theorem test_sw_misaligned :
    trapped (exec (.sw 1 1 2) (start [(2, 0x10010000)])) = some (0x00400100, 5, 0x10010001) := by decide

theorem test_sh :
    bytes (exec (.sh 1 2 2) (start [(1, 0x11223344), (2, 0x10010000)]))
      = some [some 0x80, some 0x91, some 0x44, some 0x33] := by decide

theorem test_sb :
    bytes (exec (.sb 1 1 2) (start [(1, 0x11223344), (2, 0x10010000)]))
      = some [some 0x80, some 0x44, some 0xA2, some 0xB3] := by decide

theorem test_lui : reg 1 (exec (.lui 1 0xFFFF) (start [])) = some 0xFFFF0000 := by decide

/-! ## Program control (section 2.6) -/

theorem test_beq : pcOf (exec (.beq 1 2 0x8000) (start [(1, 9), (2, 9)])) = some 0x003E0104 := by decide

theorem test_beq_not_taken : pcOf (exec (.beq 1 2 25) (start [(1, 9), (2, 8)])) = some 0x00400104 := by decide

theorem test_bne : pcOf (exec (.bne 1 2 0xFFFE) (start [(1, 1), (2, 2)])) = some 0x004000FC := by decide

theorem test_slt : reg 1 (exec (.slt 1 2 3) (start [(2, 0x80000000), (3, 0x7FFFFFFF)])) = some 1 := by decide

theorem test_sltu : reg 1 (exec (.sltu 1 2 3) (start [(2, 0x80000000), (3, 0x7FFFFFFF)])) = some 0 := by decide

theorem test_slti : reg 1 (exec (.slti 1 2 0xFFFF) (start [(2, 5)])) = some 0 := by decide

theorem test_sltiu : reg 1 (exec (.sltiu 1 2 0xFFFF) (start [(2, 5)])) = some 1 := by decide

theorem test_j : pcOf (exec (.j 1) { start [] with pc := 0x10000000 }) = some 0x10000004 := by decide

/-- The last word of a region: the top bits are those of the jump itself (R100, D20). -/
theorem test_j_at_the_end_of_a_region : pcOf (exec (.j 1) { start [] with pc := 0x0FFFFFFC }) = some 4 := by decide

theorem test_jal :
    look (fun t => (t.readReg 31, t.pc)) (exec (.jal 0x100005) { start [] with pc := 0x00400008 })
      = some (0x0040000C, 0x00400014) := by decide

theorem test_jr : pcOf (exec (.jr 2) (start [(2, 0x00400002)])) = some 0x00400002 := by decide

/-! ## Coprocessor 0 (section 2.7) -/

theorem test_mfc0 : reg 1 (exec (.mfc0 1 14) { start [] with epc := 0x00400014 }) = some 0x00400014 := by decide

/-- Another register gives any value, and the run goes on (R201, U3). -/
theorem test_mfc0_other : pcOf (exec (.mfc0 1 12) (start [])) = some 0x00400104 := by decide

/-! ## Steps -/

/-- From reset, the placed word runs as the first instruction. -/
theorem test_step_first : reg 1 (step (State.reset.withFetchWord 32 0x3C010064)) = some 0x00640000 := by decide

/-- A reserved word (section 2.8). -/
theorem test_step_reserved :
    trapped (step ((start []).withFetchWord 32 0x0000000C)) = some (0x00400100, 10, 0) := by decide

/-- A pc of 00400002 (section 2.6). -/
theorem test_step_misaligned :
    trapped (step { start [] with pc := 0x00400002 }) = some (0x00400002, 4, 0x00400002) := by decide

/-- In mode vector the pc goes to `EXC_VECTOR` (R215, program P7). -/
theorem test_step_vector :
    pcOf (step ((startIn configVector [(8, 0x7FFFFFFF)]).withFetchWord 32 0x01084820)) = some 0x00400020 := by decide

/-- With nothing placed, the first fetch from reset finds a byte that nothing has written. -/
theorem test_step_from_reset : faultOf (step State.reset) = some (.unwrittenByte 0xBFC00000) := by decide

/-- A launch gives HI, LO and EPC the values it lists (R242), and mfhi, mflo and mfc0 read them. -/
theorem test_launch :
    reg 1 (exec (.mfhi 1) (State.launch ⟨config .little, 0x00400000, [], [], some 6, some 7, some 0x00400014⟩)) = some 6
      ∧ reg 1 (exec (.mflo 1) (State.launch ⟨config .little, 0x00400000, [], [], some 6, some 7, some 0x00400014⟩))
        = some 7
      ∧ reg 1 (exec (.mfc0 1 14) (State.launch ⟨config .little, 0x00400000, [], [], some 6, some 7, some 0x00400014⟩))
        = some 0x00400014 := by decide

/-! ## The assembler's side -/

/-- Register numbers of section 1.1 and R32. -/
theorem test_reg_names :
    regName 17 = "$s1" ∧ regName 25 = "$t9" ∧ regName 29 = "$sp" ∧ regName 31 = "$ra" ∧ regNames.length = 32 := by decide

/-- The fields of section 2.6 and of R194, and one label out of reach of each. -/
theorem test_label_fields :
    branchField 0x00400100 0x00400168 = some 25 ∧ branchField 0x00400100 0x003E0104 = some 0x8000
      ∧ branchField 0x00400100 0x003E0100 = none ∧ branchField 0x00400100 0x00400106 = none
      ∧ jumpField 0x00400014 0x00400008 = some 0x0100002 ∧ jumpField 0x00400014 0x10000000 = none := by decide

/-- `$9` built by lui and ori (R106), and the operands of a load as written. -/
theorem test_expand :
    expand (.liWord 9 0x11223344) = [.lui 1 0x1122, .ori 9 1 0x3344]
      ∧ (expand .nop).map encode = [0x00000000]
      ∧ operandsOf (.lw 1 100 2) = [.reg 1, .based 100 2] := by decide

/-! ## Witnesses: for each statement with hypotheses, inputs that meet them, one for each clause, at a boundary -/

/-- StrictDecodeAcceptsOnlyEncodings; OpcodeRowsAreDisjoint. -/
theorem witness_strict_decode :
    decode true 0x00430820 = .ok (.add 1 2 3)
      ∧ (∃ r ∈ opcodeRows, r.hits 0x00430820 = true ∧ r.mnemonic = "add") := by
  exact ⟨by decide, ⟨"add", 0x00000020, 0xFC0007FF⟩, by decide, by decide, rfl⟩

/-- UnusedFieldsIgnoredWhenNotStrict, its second clause: an add with shamt 1. -/
theorem witness_unused_fields :
    ∃ r ∈ opcodeRows, decode true 0x00430820 = .ok (.add 1 2 3) ∧ r.mnemonic = mnemonicOf (.add 1 2 3)
      ∧ fieldOp 0x00430820 ≠ 0x10 ∧ fieldOp 0x00430860 = fieldOp 0x00430820
      ∧ (fieldOp 0x00430820 = 0 → fieldFunct 0x00430860 = fieldFunct 0x00430820)
      ∧ (0x00430860#32) &&& ~~~r.mask = (0x00430820#32) &&& ~~~r.mask :=
  ⟨⟨"add", 0x00000020, 0xFC0007FF⟩, by decide⟩

theorem running_start : Running (start []) := ⟨by decide, by decide⟩

/-- StepRunsDecodedInstruction, with the bytes of section 1.3's add in little-endian order. -/
theorem witness_fetch : FetchesWord ((start []).withFetchWord 32 0x00430820) 0x00430820
    ∧ decode ((start []).withFetchWord 32 0x00430820).cfg.strictZeroFields 0x00430820 = .ok (.add 1 2 3) :=
  ⟨⟨⟨by decide, by decide⟩, by decide, by unfold Populated; decide, by decide,
    0x20, 0x08, 0x43, 0x00, ⟨by decide, by decide, by decide, by decide⟩, by decide⟩, by decide⟩

/-- The same under the other byte order. -/
theorem witness_fetch_big : FetchesWord ((startBig []).withFetchWord 32 0x00430820) 0x00430820 :=
  ⟨⟨by decide, by decide⟩, by decide, by unfold Populated; decide, by decide,
    0x00, 0x43, 0x08, 0x20, ⟨by decide, by decide, by decide, by decide⟩, by decide⟩

/-- ReservedEncodingTraps. -/
theorem witness_fetch_reserved : FetchesWord ((start []).withFetchWord 32 0x0000000C) 0x0000000C
    ∧ decode ((start []).withFetchWord 32 0x0000000C).cfg.strictZeroFields 0x0000000C
      = .error (.reservedFunct 0x0C) :=
  ⟨⟨⟨by decide, by decide⟩, by decide, by unfold Populated; decide, by decide,
    0x0C, 0x00, 0x00, 0x00, ⟨by decide, by decide, by decide, by decide⟩, by decide⟩, by decide⟩

/-- MisalignedFetchTraps. -/
theorem witness_misaligned_pc : Running { start [] with pc := 0xFFFFFFFF } ∧ (0xFFFFFFFF : Word).toNat % 4 ≠ 0 :=
  ⟨⟨by decide, by decide⟩, by decide⟩

/-- FetchStopsOutsideMemoryAndText: the word after the text is not populated; the data word is, outside the text. -/
theorem witness_fetch_stops :
    (Running { start [] with pc := 0x00400200 } ∧ (0x00400200 : Word).toNat % 4 = 0
        ∧ ¬ Populated { start [] with pc := 0x00400200 } 0x00400200 4)
      ∧ Running { start [] with pc := 0x10010000 } ∧ (0x10010000 : Word).toNat % 4 = 0
      ∧ Populated { start [] with pc := 0x10010000 } 0x10010000 4
      ∧ inText { start [] with pc := 0x10010000 }.cfg 0x10010000 = false :=
  ⟨⟨⟨by decide, by decide⟩, by decide, by unfold Populated; decide⟩, ⟨by decide, by decide⟩, by decide,
    by unfold Populated; decide, by decide⟩

/-- A launch of which the last byte at the start pc is missing. -/
def startTorn : State :=
  State.launch ⟨config .little, 0x00400100, [(0x00400100, 0x20), (0x00400101, 0x08), (0x00400102, 0x43)], [], none, none,
    none⟩

/-- FetchStopsOutsideMemoryAndText, its third clause at its last byte, k = 3. -/
theorem witness_fetch_unwritten :
    Running startTorn ∧ startTorn.pc.toNat % 4 = 0 ∧ Populated startTorn startTorn.pc 4
      ∧ inText startTorn.cfg startTorn.pc = true ∧ startTorn.byteAt (startTorn.pc + BitVec.ofNat 32 3) = none
      ∧ (∀ j < 3, startTorn.byteAt (startTorn.pc + BitVec.ofNat 32 j) ≠ none) :=
  ⟨⟨by decide, by decide⟩, by decide, by unfold Populated; decide, by decide, by decide, by decide⟩

/-- NoStepAfterHaltOrAtEnd: a state halted in a trap, and one at `END_PC`, under each mode. -/
theorem witness_no_step :
    (trapState .overflow (start [])).cfg.trapMode = .halt
      ∧ (trapState .overflow (start [])).faultMark = some ⟨.overflow, 0x00400100⟩
      ∧ (start []).faultMark = none
      ∧ (startIn { config .little with endPc := some 0x00400100 } []).cfg.endPc = some 0x00400100
      ∧ (startIn { configVector with endPc := some 0x00400020 } []).cfg.trapMode ≠ .halt := by decide

/-- PlacedWordIsRunNext, at the largest word number that decodes. -/
theorem witness_placed_word :
    decode State.reset.cfg.strictZeroFields (BitVec.ofNat 32 0xAFFFFFFF) = .ok (.sw 31 0xFFFF 31) := by decide

/-- StepKeepsInvariant, StepKeepsParameters, StepCompletesOrTrapsPrecisely, StepKeepsTextAndUnpopulatedBytes: a store
that steps, the last byte of the text, and the address after it. -/
theorem witness_step_next :
    State.Inv ((start [(2, 0x10010000)]).withFetchWord 32 0xAC410000)
      ∧ (∃ t, step ((start [(2, 0x10010000)]).withFetchWord 32 0xAC410000) = .next t)
      ∧ inText ((start [(2, 0x10010000)]).withFetchWord 32 0xAC410000).cfg 0x004001FF = true
      ∧ inDomain ((start [(2, 0x10010000)]).withFetchWord 32 0xAC410000).cfg 0x00400200 = false :=
  ⟨⟨by decide, by decide⟩, exists_of_isNext (by decide), by decide, by decide⟩

/-- The same where the step enters a trap. -/
theorem witness_step_traps : (step ((start []).withFetchWord 32 0x0000000C) |> trapped) ≠ none := by decide

/-- OnlyStoresWriteMemory, OnlyMultiplyAndDivideWriteHiLo, OnlyMovesReadHiLo, AtMostOneRegisterChanges,
OnlyJrMisalignsThePc: an add that completes, and a mult for the second branch of OnlyMovesReadHiLo. -/
theorem witness_exec_next :
    storesMemory (.add 1 2 3) = false ∧ writesHiLo (.add 1 2 3) = false ∧ readsHiLo (.add 1 2 3) = false
      ∧ readsHiLo (.mult 2 3) = false ∧ isJr (.add 1 2 3) = false ∧ (start []).pc.toNat % 4 = 0
      ∧ ((start []).cfg.trapMode = .vector → (start []).cfg.excVector.toNat % 4 = 0)
      ∧ (∃ t, exec (.add 1 2 3) (start []) = .next t) :=
  ⟨rfl, rfl, rfl, rfl, rfl, by decide, by decide, exists_of_isNext (by decide)⟩

/-- OnlyJrMisalignsThePc under mode vector, where the instruction traps. -/
theorem witness_exec_vector :
    (startIn configVector []).cfg.trapMode = .vector ∧ (startIn configVector []).cfg.excVector.toNat % 4 = 0
      ∧ pcOf (exec (.add 1 2 3) (startIn configVector [(2, 0x7FFFFFFF), (3, 1)])) = some 0x00400020 := by decide

/-- OnlyMemoryAccessesStop: an instruction without an access, the two faults and the refusal. -/
theorem witness_stops :
    dataAccess (.add 1 2 3) = none
      ∧ exec (.lw 1 16 2) (start [(2, 0x10010000)]) = .fault (.outsideMemory 0x10010010)
      ∧ exec (.lw 1 12 2) (start [(2, 0x10010000)]) = .fault (.unwrittenByte 0x1001000C)
      ∧ exec (.sb 1 0x1FF 2) (start [(2, 0x00400000)]) = .refused (.storeIntoText 0x004001FF) :=
  ⟨rfl, rfl, rfl, rfl⟩

/-- TrapEntryRecordsTheException, TrapEntered: a state in each mode. -/
theorem witness_modes :
    (start []).cfg.trapMode = .halt ∧ (startIn configVector []).cfg.trapMode = .vector := by decide

/-- RegisterFileLaws. -/
theorem witness_registers : (31 : Reg) ≠ 0 ∧ (0 : Reg) ≠ 31 := by decide

/-- SignedArithmeticCompletesOrOverflows, UnsignedFormsAgreeWhereNoOverflow: the largest result that fits, and the first
beyond it on either side. -/
theorem witness_fits :
    FitsWord (((start [(2, 0x7FFFFFFE)]).readReg 2).toInt + (1 : Imm).toInt)
      ∧ ¬ FitsWord (((start [(2, 0x7FFFFFFF)]).readReg 2).toInt + (1 : Imm).toInt)
      ∧ FitsWord (((start [(2, 0x7FFFFFFE), (3, 1)]).readReg 2).toInt
          + ((start [(2, 0x7FFFFFFE), (3, 1)]).readReg 3).toInt)
      ∧ ¬ FitsWord (((start [(2, 0x80000000), (3, 0xFFFFFFFF)]).readReg 2).toInt
          + ((start [(2, 0x80000000), (3, 0xFFFFFFFF)]).readReg 3).toInt)
      ∧ FitsWord (((start [(2, 0x80000001), (3, 1)]).readReg 2).toInt
          - ((start [(2, 0x80000001), (3, 1)]).readReg 3).toInt)
      ∧ ¬ FitsWord (((start [(2, 0x80000000), (3, 1)]).readReg 2).toInt
          - ((start [(2, 0x80000000), (3, 1)]).readReg 3).toInt) := by
  unfold FitsWord; decide

/-- OverflowIsTheBitLevelTest: each side of each clause. -/
theorem witness_bit_test :
    ((0x7FFFFFFF : Word).msb = (1 : Word).msb ∧ (0x7FFFFFFF + 1 : Word).msb ≠ (0x7FFFFFFF : Word).msb)
      ∧ ¬ ((0x7FFFFFFF : Word).msb = (0x80000000 : Word).msb)
      ∧ ((0x80000000 : Word).msb ≠ (1 : Word).msb ∧ (0x80000000 - 1 : Word).msb ≠ (0x80000000 : Word).msb)
      ∧ ¬ ((0x80000000 : Word).msb ≠ (0x80000000 : Word).msb) := by decide

/-- DivideGivesQuotientAndRemainder: the most negative dividend over one. -/
theorem witness_divide :
    (start [(2, 0x80000000), (3, 1)]).readReg 3 ≠ 0
      ∧ ¬ ((start [(2, 0x80000000), (3, 1)]).readReg 2 = 0x80000000
        ∧ (start [(2, 0x80000000), (3, 1)]).readReg 3 = 0xFFFFFFFF) := by decide

/-- OpenDivisionsLeaveDraws: the divisor zero, and the quotient 2^31. -/
theorem witness_divide_open :
    (start [(2, 5)]).readReg 3 = 0
      ∧ (start [(2, 0x80000000), (3, 0xFFFFFFFF)]).readReg 2 = 0x80000000
      ∧ (start [(2, 0x80000000), (3, 0xFFFFFFFF)]).readReg 3 = 0xFFFFFFFF := by decide

/-- LoadWordLoadsOrTraps: misaligned by one; and the last word with a value, its four bytes. -/
theorem witness_load_word :
    (effectiveAddress (start [(2, 0x10010000)]) 2 1).toNat % 4 ≠ 0
      ∧ (effectiveAddress (start [(2, 0x10010000)]) 2 4).toNat % 4 = 0
      ∧ Populated (start [(2, 0x10010000)]) (effectiveAddress (start [(2, 0x10010000)]) 2 4) 4
      ∧ BytesAt (start [(2, 0x10010000)]) (effectiveAddress (start [(2, 0x10010000)]) 2 4) 0xC4 0xD5 0xE6 0xF7 :=
  ⟨by decide, by decide, by unfold Populated; decide, by decide, by decide, by decide, by decide⟩

/-- LoadHalfwordLoadsOrTraps and LoadByteLoads: an odd address, the last halfword and the last byte with a value. -/
theorem witness_load_narrow :
    (effectiveAddress (start [(2, 0x10010000)]) 2 7).toNat % 2 ≠ 0
      ∧ (effectiveAddress (start [(2, 0x10010000)]) 2 6).toNat % 2 = 0
      ∧ Populated (start [(2, 0x10010000)]) (effectiveAddress (start [(2, 0x10010000)]) 2 6) 2
      ∧ (start [(2, 0x10010000)]).byteAt (effectiveAddress (start [(2, 0x10010000)]) 2 6) = some 0xE6
      ∧ (start [(2, 0x10010000)]).byteAt (effectiveAddress (start [(2, 0x10010000)]) 2 6 + 1) = some 0xF7
      ∧ Populated (start [(2, 0x10010000)]) (effectiveAddress (start [(2, 0x10010000)]) 2 7) 1
      ∧ (start [(2, 0x10010000)]).byteAt (effectiveAddress (start [(2, 0x10010000)]) 2 7) = some 0xF7 := by
  unfold Populated; decide

/-- LoadsStopWithoutMemory: the word after the data, and a word that nothing has written. -/
theorem witness_load_stops :
    (effectiveAddress (start [(2, 0x10010000)]) 2 16).toNat % 4 = 0
      ∧ ¬ Populated (start [(2, 0x10010000)]) (effectiveAddress (start [(2, 0x10010000)]) 2 16) 4
      ∧ ¬ Populated (start [(2, 0x10010000)]) (effectiveAddress (start [(2, 0x10010000)]) 2 16) 1
      ∧ (effectiveAddress (start [(2, 0x10010000)]) 2 12).toNat % 4 = 0
      ∧ Populated (start [(2, 0x10010000)]) (effectiveAddress (start [(2, 0x10010000)]) 2 12) 4
      ∧ (∃ k < 4, (start [(2, 0x10010000)]).byteAt
          (effectiveAddress (start [(2, 0x10010000)]) 2 12 + BitVec.ofNat 32 k) = none) := by
  unfold Populated; decide

/-- StoreWordStoresOrTraps, StoreHalfwordStoresOrTraps, StoreByteStores: misaligned by one; the last word of the text; the
word after the data; the last word of the data. Each word is also a halfword's and a byte's address. -/
theorem witness_store :
    (effectiveAddress (start [(2, 0x10010000)]) 2 1).toNat % 4 ≠ 0
      ∧ (effectiveAddress (start [(2, 0x10010000)]) 2 1).toNat % 2 ≠ 0
      ∧ (effectiveAddress (start [(2, 0x00400000)]) 2 0x1FC).toNat % 4 = 0
      ∧ ¬ ClearOfText (start [(2, 0x00400000)]) (effectiveAddress (start [(2, 0x00400000)]) 2 0x1FC) 4
      ∧ ¬ ClearOfText (start [(2, 0x00400000)]) (effectiveAddress (start [(2, 0x00400000)]) 2 0x1FC) 1
      ∧ (effectiveAddress (start [(2, 0x10010000)]) 2 16).toNat % 4 = 0
      ∧ ClearOfText (start [(2, 0x10010000)]) (effectiveAddress (start [(2, 0x10010000)]) 2 16) 4
      ∧ ¬ Populated (start [(2, 0x10010000)]) (effectiveAddress (start [(2, 0x10010000)]) 2 16) 1
      ∧ (effectiveAddress (start [(2, 0x10010000)]) 2 12).toNat % 4 = 0
      ∧ ClearOfText (start [(2, 0x10010000)]) (effectiveAddress (start [(2, 0x10010000)]) 2 12) 4
      ∧ Populated (start [(2, 0x10010000)]) (effectiveAddress (start [(2, 0x10010000)]) 2 12) 4 := by
  unfold ClearOfText Populated; decide

/-- The same for the halfword's span, which none of the above states. -/
theorem witness_store_halfword :
    ¬ ClearOfText (start [(2, 0x00400000)]) (effectiveAddress (start [(2, 0x00400000)]) 2 0x1FE) 2
      ∧ ¬ Populated (start [(2, 0x10010000)]) (effectiveAddress (start [(2, 0x10010000)]) 2 16) 2
      ∧ ClearOfText (start [(2, 0x10010000)]) (effectiveAddress (start [(2, 0x10010000)]) 2 14) 2
      ∧ Populated (start [(2, 0x10010000)]) (effectiveAddress (start [(2, 0x10010000)]) 2 14) 2 := by
  unfold ClearOfText Populated; decide

/-- LoadAfterStoreGivesStoredValue: each store answers a next state. -/
theorem witness_store_then_load :
    (effectiveAddress (start [(2, 0x10010000)]) 2 12).toNat % 4 = 0
      ∧ (∃ t, exec (.sw 1 12 2) (start [(2, 0x10010000)]) = .next t)
      ∧ (effectiveAddress (start [(2, 0x10010000)]) 2 14).toNat % 2 = 0
      ∧ (∃ t, exec (.sh 1 14 2) (start [(2, 0x10010000)]) = .next t)
      ∧ (∃ t, exec (.sb 1 15 2) (start [(2, 0x10010000)]) = .next t) :=
  ⟨by decide, exists_of_isNext (by decide), by decide, exists_of_isNext (by decide), exists_of_isNext (by decide)⟩

/-- ByteLoadSeesLaneOfStoredWord: the last lane of the last word, with k = 3. -/
theorem witness_lane :
    (effectiveAddress (start [(2, 0x10010000)]) 2 12).toNat % 4 = 0
      ∧ effectiveAddress (start [(2, 0x10010000)]) 2 15
        = effectiveAddress (start [(2, 0x10010000)]) 2 12 + BitVec.ofNat 32 3
      ∧ (∃ t, exec (.sw 1 12 2) (start [(2, 0x10010000)]) = .next t) :=
  ⟨by decide, by decide, exists_of_isNext (by decide)⟩

/-- LuiAndOriBuildConstants: both branches of its result. -/
theorem witness_lui_ori :
    reg 9 (exec (.ori 9 9 0x3344) (start [(9, 0x11220000)])) = some 0x11223344
      ∧ reg 0 (exec (.ori 0 0 0x3344) (start [])) = some 0 := by decide

/-- BranchesGoToTargetOrOn: equal and unequal registers. -/
theorem witness_branch :
    (start [(1, 9), (2, 9)]).readReg 1 = (start [(1, 9), (2, 9)]).readReg 2
      ∧ (start [(1, 9), (2, 8)]).readReg 1 ≠ (start [(1, 9), (2, 8)]).readReg 2 := by decide

/-- SltuRecoversCarry. -/
theorem witness_carry : (1 : Reg) ≠ 0 ∧ (2 : Reg) ≠ 1 := by decide

/-- MisalignedJrTrapsAtNextFetch: the target is misaligned, and the run goes on. -/
theorem witness_misaligned_jr :
    ((start [(2, 0x00400002)]).readReg 2).toNat % 4 ≠ 0
      ∧ ∃ t, exec (.jr 2) (start [(2, 0x00400002)]) = .next t ∧ Running t :=
  ⟨by decide, _, rfl, by decide, by decide⟩

/-- Mfc0OfOtherRegisterDraws, on either side of register 14. -/
theorem witness_mfc0_other : (13 : Reg) ≠ 14 ∧ (15 : Reg) ≠ 14 := by decide

end Sys2Proof.Tests
end

section
/-! SUPPORT. When a step exists and what it runs (R13, R214, R243), what it keeps of the launch (R6, R63), and the register
file (R9, R31). -/

namespace Sys2Proof.Machine

/-! ## Where no step exists -/

theorem step_of_stopped {s : State} {f : Fault} (h : stopped s = some f) : step s = .fault f := by
  simp only [step, h]

/-- A trap under `TRAP_MODE = halt` stops the machine (R214). -/
theorem stopped_of_halted {s : State} {m : FaultMark} (hmode : s.cfg.trapMode = .halt) (hmark : s.faultMark = some m) :
    stopped s = some (.halted m) := by
  simp only [stopped, hmode, hmark]

/-- At `END_PC` the run is over, unless the machine has halted in a trap (R243). -/
theorem stopped_of_end {s : State} (hmark : s.cfg.trapMode = .halt → s.faultMark = none)
    (hend : s.cfg.endPc = some s.pc) : stopped s = some .runOver := by
  cases hmode : s.cfg.trapMode with
  | halt => simp only [stopped, hmode, hmark hmode, hend, if_true]
  | vector => simp only [stopped, hmode, hend, if_true]

/-- Settles O12: each clause is the answer `stopped` gives before any fetch. -/
theorem noStepAfterHaltOrAtEnd : Obligations.NoStepAfterHaltOrAtEnd :=
  ⟨fun _ _ hmode hmark => step_of_stopped (stopped_of_halted hmode hmark),
    fun _ hmark hend => step_of_stopped (stopped_of_end hmark hend)⟩

/-! ## What a step runs -/

/-- Once the fetch has given a word, a step is its decoding and the instruction (R13). -/
theorem step_of_fetches {s : State} {w : Word} (h : FetchesWord s w) :
    step s = settle (decodeFetched s w) s fun i => exec i s := by
  rw [step_of_running h.running, fetchWord_of h, settle_ok]

theorem decodeFetched_of_decode {s : State} {w : Word} {i : Instr} (h : decode s.cfg.strictZeroFields w = .ok i) :
    decodeFetched s w = .ok i := by
  simp only [decodeFetched, h]

theorem step_of_fetches_decode {s : State} {w : Word} {i : Instr} (hf : FetchesWord s w)
    (hd : decode s.cfg.strictZeroFields w = .ok i) : step s = exec i s := by
  rw [step_of_fetches hf, decodeFetched_of_decode hd, settle_ok]

/-- Settles O8: the fetch answers the word at the pc, and the decoder its instruction. -/
theorem stepRunsDecodedInstruction : Obligations.StepRunsDecodedInstruction :=
  fun _ _ _ hf hd => step_of_fetches_decode hf hd

/-- Placing a word leaves `STRICT_ZERO_FIELDS` alone: `configForFetch` touches `MEM_DOMAIN`, `TEXT` and `END_PC` only. -/
theorem withFetchWord_strictZeroFields (s : State) (nbits w : Nat) :
    (s.withFetchWord nbits w).cfg.strictZeroFields = s.cfg.strictZeroFields := rfl

/-- Settles O14: the state with the word placed fetches that word, and decodes it as the state before does. -/
theorem placedWordIsRunNext : Obligations.PlacedWordIsRunNext := by
  intro s w i hd
  rw [← withFetchWord_strictZeroFields s 32 w] at hd
  exact step_of_fetches_decode (withFetchWord_fetches s w) hd

/-! ## The parameters of the run -/

/-- No instruction writes a parameter, whichever of its effects it has. -/
theorem exec_cfg {i : Instr} {s t : State} (h : exec i s = .next t) : t.cfg = s.cfg := by
  rcases exec_next h with ⟨e, rfl⟩ | ⟨⟨r, v, p, n, rfl⟩, -⟩ | ⟨⟨hi, lo, n, rfl⟩, -⟩ | ⟨⟨w, a, v, rfl, -⟩, -⟩
  · exact trapState_cfg s e
  · exact writeReg_cfg s r v
  · rfl
  · rw [advance_cfg, memWrite_cfg]

/-- Settles O19: a next state of a step is that of a trap entry or of an instruction, and neither writes a parameter. -/
theorem stepKeepsParameters : Obligations.StepKeepsParameters := by
  intro s t h
  obtain ⟨-, ⟨e, rfl⟩ | ⟨i, hi⟩⟩ := step_next h
  · exact trapState_cfg s e
  · exact exec_cfg hi

/-! ## The register file -/

/-- Settles O29, from the read-after-write law `readReg_writeReg`. -/
theorem registerFileLaws : Obligations.RegisterFileLaws := by
  intro s r q v
  exact ⟨readReg_zero s, writeReg_zero s v, fun hr => (readReg_writeReg_same s r v).trans (if_neg hr),
    readReg_writeReg_other s v⟩

end Sys2Proof.Machine
end

section
/-! SUPPORT. The state after reset and what every step keeps of a state: its invariant (R31, R44), the exception state
(R40, R41, R213, R214), HI and LO (R38), the alignment of the pc (R37) and all general registers but one (R34). -/

namespace Sys2Proof.Machine

/-! ## The launch and reset (R46, R240, R242) -/

/-- A launch places its bytes one write at a time and stores nothing for register 0. -/
theorem launch_inv (l : Launch) : (State.launch l).Inv where
  memoryCanonical := Memory.wf_place [] l.image rfl
  zeroSlot := placeRegs_zeroSlot (Vector.replicate 32 unwrittenRegister) l.regs

/-- Settles O16: reset is a launch. -/
theorem resetMeetsInvariant : Obligations.ResetMeetsInvariant :=
  launch_inv resetLaunch

/-- A launch that gives no register a value leaves all of them as log 8 says. -/
theorem launch_readReg {l : Launch} (h : l.regs = []) (r : Reg) :
    (State.launch l).readReg r = unwrittenRegister := by
  unfold State.readReg
  split
  · rfl
  · simp only [State.launch, h, placeRegs, Vector.getElem_replicate]

/-- Settles O15: no register or byte is placed, and the parameters are those of `defaultConfig`. -/
theorem resetState : Obligations.ResetState :=
  ⟨launch_readReg rfl, rfl, rfl, rfl, rfl, rfl, rfl, rfl, rfl, rfl, by decide, fun _ => rfl⟩

/-! ## The frame of each effect -/

/-- The exceptions and the instructions together: what a step can do. -/
theorem step_effect {s t : State} (h : step s = .next t) :
    (∃ e, t = trapState e s) ∨ RegisterEffect s t ∨ HiLoEffect s t ∨ StoreEffect s t := by
  obtain ⟨-, ht | ⟨i, hi⟩⟩ := step_next h
  · exact .inl ht
  · rcases exec_next hi with ht | ⟨hr, -⟩ | ⟨hl, -⟩ | ⟨hs, -⟩
    · exact .inl ht
    · exact .inr (.inl hr)
    · exact .inr (.inr (.inl hl))
    · exact .inr (.inr (.inr hs))

theorem RegisterEffect.sameSystem {s t : State} (h : RegisterEffect s t) : SameSystem s t := by
  obtain ⟨r, v, p, n, rfl⟩ := h
  exact ⟨writeReg_epc s r v, writeReg_causeCode s r v, writeReg_badVAddr s r v, writeReg_faultMark s r v,
    writeReg_cfg s r v⟩

theorem HiLoEffect.sameSystem {s t : State} (h : HiLoEffect s t) : SameSystem s t := by
  obtain ⟨hi, lo, n, rfl⟩ := h
  exact ⟨rfl, rfl, rfl, rfl, rfl⟩

theorem StoreEffect.sameSystem {s t : State} (h : StoreEffect s t) : SameSystem s t := by
  obtain ⟨w, a, v, rfl, -⟩ := h
  exact (memWrite_stored s w a v).system

theorem RegisterEffect.inv {s t : State} (h : RegisterEffect s t) (hs : s.Inv) : t.Inv := by
  obtain ⟨r, v, p, n, rfl⟩ := h
  exact ⟨(congrArg Memory.wf (writeReg_mem s r v)).trans hs.memoryCanonical,
    (writeReg_zeroSlot s r v).trans hs.zeroSlot⟩

theorem HiLoEffect.inv {s t : State} (h : HiLoEffect s t) (hs : s.Inv) : t.Inv := by
  obtain ⟨hi, lo, n, rfl⟩ := h
  exact ⟨hs.memoryCanonical, hs.zeroSlot⟩

theorem StoreEffect.inv {s t : State} (h : StoreEffect s t) (hs : s.Inv) : t.Inv := by
  obtain ⟨w, a, v, rfl, -⟩ := h
  exact ⟨memWrite_wf s w a v hs.memoryCanonical, hs.zeroSlot⟩

theorem trapState_inv {s : State} (e : Trap) (hs : s.Inv) : (trapState e s).Inv :=
  ⟨hs.memoryCanonical, hs.zeroSlot⟩

theorem RegisterEffect.hiLo {s t : State} (h : RegisterEffect s t) : t.hi = s.hi ∧ t.lo = s.lo := by
  obtain ⟨r, v, p, n, rfl⟩ := h
  exact ⟨writeReg_hi s r v, writeReg_lo s r v⟩

theorem StoreEffect.hiLo {s t : State} (h : StoreEffect s t) : t.hi = s.hi ∧ t.lo = s.lo := by
  obtain ⟨w, a, v, rfl, -⟩ := h
  exact ⟨rfl, rfl⟩

theorem RegisterEffect.sameRegisters_but_one {s t : State} (h : RegisterEffect s t) :
    ∃ r : Reg, ∀ q : Reg, q ≠ r → t.readReg q = s.readReg q := by
  obtain ⟨r, v, p, n, rfl⟩ := h
  exact ⟨r, fun q hq => readReg_writeReg_other s v hq⟩

theorem HiLoEffect.sameRegisters {s t : State} (h : HiLoEffect s t) : SameRegisters s t := by
  obtain ⟨hi, lo, n, rfl⟩ := h
  exact fun _ => rfl

theorem StoreEffect.sameRegisters {s t : State} (h : StoreEffect s t) : SameRegisters s t := by
  obtain ⟨w, a, v, rfl, -⟩ := h
  exact (memWrite_stored s w a v).registers

/-! ## What every step keeps -/

/-- Settles O18: register 0's slot is never written, and a store writes at 32-bit addresses. -/
theorem stepKeepsInvariant : Obligations.StepKeepsInvariant := by
  intro s t hs h
  rcases step_effect h with ⟨e, rfl⟩ | hr | hl | hm
  · exact trapState_inv e hs
  · exact hr.inv hs
  · exact hl.inv hs
  · exact hm.inv hs

/-- Settles O25: a step that is no trap entry is the effect of an instruction, which leaves the exception state alone. -/
theorem stepCompletesOrTrapsPrecisely : Obligations.StepCompletesOrTrapsPrecisely := by
  intro s t h
  rcases step_effect h with ⟨e, rfl⟩ | hr | hl | hm
  · exact .inr ⟨e, trapState_entered e s⟩
  · exact .inl hr.sameSystem
  · exact .inl hl.sameSystem
  · exact .inl hm.sameSystem

/-- Settles O27: only an instruction with a register result changes a register at all. -/
theorem atMostOneRegisterChanges : Obligations.AtMostOneRegisterChanges := by
  intro i s t h
  rcases exec_next h with ⟨e, rfl⟩ | ⟨hr, -⟩ | ⟨hl, -⟩ | ⟨hm, -⟩
  · exact ⟨0, fun q _ => readReg_trapState s e q⟩
  · exact hr.sameRegisters_but_one
  · exact ⟨0, fun q _ => hl.sameRegisters q⟩
  · exact ⟨0, fun q _ => hm.sameRegisters q⟩

theorem exec_keeps_hiLo {i : Instr} {s t : State} (hw : writesHiLo i = false) (h : exec i s = .next t) :
    t.hi = s.hi ∧ t.lo = s.lo := by
  rcases exec_next h with ⟨e, rfl⟩ | ⟨hr, -⟩ | ⟨-, hw'⟩ | ⟨hm, -⟩
  · exact ⟨rfl, rfl⟩
  · exact hr.hiLo
  · exact absurd (hw.symm.trans hw') Bool.false_ne_true
  · exact hm.hiLo

/-- Settles O22: trap entry, a register result and a store all leave HI and LO alone. -/
theorem onlyMultiplyAndDivideWriteHiLo : Obligations.OnlyMultiplyAndDivideWriteHiLo :=
  fun _ _ _ hw h => exec_keeps_hiLo hw h

/-! ## The alignment of the pc (R37) -/

theorem fetchWord_misaligned {s : State} (h : s.pc.toNat % 4 ≠ 0) :
    fetchWord s = .trap (.addressErrorFetch s.pc) := by
  have ha : aligned .word s.pc = false := (not_aligned_iff .word s.pc).mpr h
  simp [fetchWord, ha]

/-- Settles O10: the alignment is the first check of the fetch. -/
theorem misalignedFetchTraps : Obligations.MisalignedFetchTraps := by
  intro s hrun hpc
  refine ⟨trapState (.addressErrorFetch s.pc) s, ?_, trapState_entered _ s⟩
  rw [step_of_running hrun, fetchWord_misaligned hpc, settle_trap]

/-- Where the pc can stand after an instruction other than jr. -/
inductive NextPc (s : State) : Word → Prop
  | advance : NextPc s (s.pc + 4)
  | branch (imm : Imm) : NextPc s (branchTarget s.pc imm)
  | jump (target : Addr26) : NextPc s (jumpTarget s.pc target)
  | trap : NextPc s (trapPc s)

theorem finishReg_nextPc (s : State) (r : Reg) (v : Word) : NextPc s (s.finishReg r v).pc := by
  rw [finishReg_pc]
  exact .advance

theorem writeExact_nextPc {s t : State} {r : Reg} {e : Int} (h : writeExact s r e = .next t) : NextPc s t.pc := by
  rcases writeExact_cases s r e with ⟨-, h'⟩ | ⟨-, h'⟩
  · cases h'.symm.trans h
    exact finishReg_nextPc s r _
  · cases h'.symm.trans h
    exact .trap

theorem execLoad_nextPc {s t : State} {w : Width} {rt rs : Reg} {imm : Imm} (h : execLoad w rt imm rs s = .next t) :
    NextPc s t.pc := by
  rcases settle_next h with ⟨v, -, hk⟩ | ⟨e, -, rfl⟩
  · cases hk
    exact finishReg_nextPc s rt v
  · exact .trap

theorem execStore_nextPc {s t : State} {w : Width} {rt rs : Reg} {imm : Imm} (h : execStore w rt imm rs s = .next t) :
    NextPc s t.pc := by
  rcases execStore_next h with ⟨w, a, v, rfl, -⟩ | rfl
  · exact .advance
  · exact .trap

theorem HiLoEffect.nextPc {s t : State} (h : HiLoEffect s t) : NextPc s t.pc := by
  obtain ⟨hi, lo, n, rfl⟩ := h
  exact .advance

theorem branchIf_nextPc {s t : State} {taken : Bool} {imm : Imm} (h : branchIf taken imm s = .next t) :
    NextPc s t.pc := by
  cases taken <;> cases h
  · exact .advance
  · exact .branch imm

theorem execMfc0_nextPc {s t : State} {rt rd : Reg} (h : execMfc0 rt rd s = .next t) : NextPc s t.pc := by
  unfold execMfc0 at h
  split at h <;> cases h
  · exact finishReg_nextPc s rt _
  · rw [finishReg_pc, drawn_pc]
    exact .advance

theorem exec_nextPc {i : Instr} {s t : State} (hj : isJr i = false) (h : exec i s = .next t) : NextPc s t.pc := by
  cases i with
  | add | sub | addi => exact writeExact_nextPc h
  | lw | lbu | lhu => exact execLoad_nextPc h
  | sw | sb | sh => exact execStore_nextPc h
  | mult | multu => cases h; exact .advance
  | div | divu => exact (divide_effect h).nextPc
  | beq | bne => exact branchIf_nextPc h
  | j target | jal target => cases h; exact .jump target
  | jr => cases hj
  | mfc0 => exact execMfc0_nextPc h
  | _ => cases h; exact finishReg_nextPc s _ _

theorem add_four_aligned {a : Word} (h : a.toNat % 4 = 0) : (a + 4).toNat % 4 = 0 := by
  have h4 : (4 : Word).toNat = 4 := rfl
  rw [BitVec.toNat_add, h4]
  omega

theorem branchTarget_aligned {pc : Word} (imm : Imm) (h : pc.toNat % 4 = 0) : (branchTarget pc imm).toNat % 4 = 0 := by
  have hn := add_four_aligned h
  unfold branchTarget
  generalize pc + 4 = next at hn ⊢
  rw [BitVec.toNat_add, BitVec.toNat_shiftLeft, Nat.shiftLeft_eq]
  omega

/-- The lowest two bits of a jump's target are zero (R100). -/
theorem jumpTarget_aligned (pc : Word) (target : Addr26) : (jumpTarget pc target).toNat % 4 = 0 := by
  rw [jumpTarget, BitVec.toNat_append, Nat.shiftLeft_eq, BitVec.toNat_zero, Nat.or_zero]
  omega

theorem trapPc_aligned {s : State} (h : s.pc.toNat % 4 = 0)
    (hv : s.cfg.trapMode = .vector → s.cfg.excVector.toNat % 4 = 0) : (trapPc s).toNat % 4 = 0 := by
  unfold trapPc
  split
  · exact h
  · next hm => exact hv hm

/-- Every place the pc can go but a register's value is a multiple of 4. -/
theorem NextPc.aligned {s : State} {p : Word} (hp : NextPc s p) (h : s.pc.toNat % 4 = 0)
    (hv : s.cfg.trapMode = .vector → s.cfg.excVector.toNat % 4 = 0) : p.toNat % 4 = 0 := by
  cases hp with
  | advance => exact add_four_aligned h
  | branch imm => exact branchTarget_aligned imm h
  | jump target => exact jumpTarget_aligned s.pc target
  | trap => exact trapPc_aligned h hv

/-- Settles O26: an instruction other than jr takes its next pc from the pc, from its own fields or from `EXC_VECTOR`. -/
theorem onlyJrMisalignsThePc : Obligations.OnlyJrMisalignsThePc :=
  fun _ _ _ hj hpc hv h => (exec_nextPc hj h).aligned hpc hv

end Sys2Proof.Machine
end

section
/-! SUPPORT. What the instructions do not read: HI and LO, mfhi and mflo apart (R38), CauseCode and BadVAddr (R41). -/

namespace Sys2Proof.Machine

/-! ## Overwriting registers that the shared operations do not read -/

/-- `F` overwrites registers that no operation shared by the instructions reads: it can be done before or after each of
them alike, but for trap entry and a write of HI and LO, which may write the same registers as `F`. -/
structure Overwrite (F : State → State) : Prop where
  write_comm : ∀ s r v, (F s).writeReg r v = F (s.writeReg r v)
  pc_eq : ∀ s, (F s).pc = s.pc := by intros; rfl
  epc_eq : ∀ s, (F s).epc = s.epc := by intros; rfl
  mem_eq : ∀ s, (F s).mem = s.mem := by intros; rfl
  draws_eq : ∀ s, (F s).draws = s.draws := by intros; rfl
  cfg_eq : ∀ s, (F s).cfg = s.cfg := by intros; rfl
  read_eq : ∀ s r, (F s).readReg r = s.readReg r := by intros; rfl
  twice : ∀ s, F (F s) = F s := by intros; rfl
  jump_comm : ∀ s p, (F s).jump p = F (s.jump p) := by intros; rfl
  drawn_comm : ∀ s, (F s).drawn = F s.drawn := by intros; rfl
  store_comm : ∀ s w a v, memWrite (F s) w a v = F (memWrite s w a v) := by intros; rfl
  hiLo_absorb : ∀ s h l, F ((F s).writeHiLo h l) = F (s.writeHiLo h l) := by intros; rfl
  trap_absorb : ∀ s e, F (trapState e (F s)) = F (trapState e s) := by intros; rfl

/-- HI and LO overwritten. -/
theorem overwrite_hiLo (h l : Word) : Overwrite (fun s => s.writeHiLo h l) where
  write_comm s r v := by unfold State.writeReg; split <;> rfl

/-- CauseCode and BadVAddr overwritten. -/
def State.clearCause (s : State) : State := { s with causeCode := 0, badVAddr := 0 }

theorem overwrite_clearCause : Overwrite State.clearCause where
  write_comm s r v := by unfold State.writeReg; split <;> rfl

@[simp] theorem mapNext_next (f : State → State) (t : State) : mapNext f (.next t) = .next (f t) := rfl

theorem mapNext_id (x : Result) : mapNext (fun t => t) x = x := by cases x <;> rfl

/-- What a load reads depends on memory and the parameters alone. -/
theorem readLanes_congr {s t : State} (hm : t.mem = s.mem) (hc : t.cfg = s.cfg) (n : Nat) (a : Word) (k : Nat) :
    readLanes t n a k = readLanes s n a k := by
  induction k with
  | zero => rfl
  | succ k ih => simp only [readLanes, ih, byteAt_congr hm, hc]

theorem loadAt_congr {s t : State} (hm : t.mem = s.mem) (hc : t.cfg = s.cfg) (w : Width) (a : Word) :
    loadAt t w a = loadAt s w a := by
  simp only [loadAt, memRead, hc, readLanes_congr hm hc]

/-! ## The endings of the instructions, before and after an overwrite -/

namespace Overwrite

variable {F : State → State} (hF : Overwrite F)
include hF

theorem advance_comm (s : State) : (F s).advance = F s.advance :=
  calc (F s).advance = (F s).jump (s.pc + 4) := congrArg (fun p => (F s).jump (p + 4)) (hF.pc_eq s)
    _ = F s.advance := hF.jump_comm s (s.pc + 4)

theorem finishReg_comm (s : State) (r : Reg) (v : Word) : (F s).finishReg r v = F (s.finishReg r v) := by
  simp only [State.finishReg, hF.write_comm, hF.advance_comm]

theorem raise_eq (s : State) (e : Trap) : mapNext F (raise e (F s)) = mapNext F (raise e s) :=
  congrArg Host.Outcome.next (hF.trap_absorb s e)

theorem finishReg_eq (s : State) {r : Reg} {v v' : Word} (hv : v' = v) :
    mapNext F (.next ((F s).finishReg r v')) = mapNext F (.next (s.finishReg r v)) := by
  rw [hv, hF.finishReg_comm, mapNext_next, hF.twice, mapNext_next]

theorem writeExact_eq (s : State) {r : Reg} {e e' : Int} (he : e' = e) :
    mapNext F (writeExact (F s) r e') = mapNext F (writeExact s r e) := by
  subst he
  unfold writeExact
  split
  · exact hF.finishReg_eq s rfl
  · exact hF.raise_eq s .overflow

theorem jump_eq (s : State) {p p' : Word} (hp : p' = p) :
    mapNext F (.next ((F s).jump p')) = mapNext F (.next (s.jump p)) := by
  rw [hp, hF.jump_comm, mapNext_next, hF.twice, mapNext_next]

theorem branchIf_eq (s : State) {b b' : Bool} {imm : Imm} (hb : b' = b) :
    mapNext F (branchIf b' imm (F s)) = mapNext F (branchIf b imm s) := by
  subst hb
  cases b'
  · exact hF.jump_eq s (by rw [hF.pc_eq])
  · exact hF.jump_eq s (by rw [hF.pc_eq])

theorem finishHiLo_eq (s : State) {h h' l l' : Word} (hh : h' = h) (hl : l' = l) :
    mapNext F (finishHiLo (F s) h' l') = mapNext F (finishHiLo s h l) := by
  subst hh hl
  simp only [finishHiLo, mapNext_next, ← hF.advance_comm, hF.hiLo_absorb]

theorem finishProduct_eq (s : State) {p p' : BitVec 64} (hp : p' = p) :
    mapNext F (finishProduct (F s) p') = mapNext F (finishProduct s p) :=
  hF.finishHiLo_eq s (by rw [hp]) (by rw [hp])

theorem nextDraw_eq (s : State) : (F s).nextDraw = s.nextDraw := congrArg Config.any32 (hF.draws_eq s)

theorem finishDrawn_eq (s : State) : mapNext F (finishDrawn (F s)) = mapNext F (finishDrawn s) := by
  unfold finishDrawn
  rw [hF.nextDraw_eq, hF.drawn_comm, hF.nextDraw_eq, hF.drawn_comm]
  exact hF.finishHiLo_eq s.drawn.drawn rfl rfl

theorem execDiv_eq (s : State) (rs rt : Reg) : mapNext F (execDiv rs rt (F s)) = mapNext F (execDiv rs rt s) := by
  simp only [execDiv, hF.read_eq]
  split
  · exact hF.finishDrawn_eq s
  · exact hF.finishHiLo_eq s rfl rfl

theorem execDivu_eq (s : State) (rs rt : Reg) : mapNext F (execDivu rs rt (F s)) = mapNext F (execDivu rs rt s) := by
  simp only [execDivu, hF.read_eq]
  split
  · exact hF.finishDrawn_eq s
  · exact hF.finishHiLo_eq s rfl rfl

theorem execMfc0_eq (s : State) (rt rd : Reg) : mapNext F (execMfc0 rt rd (F s)) = mapNext F (execMfc0 rt rd s) := by
  unfold execMfc0
  split
  · exact hF.finishReg_eq s (hF.epc_eq s)
  · rw [hF.drawn_comm]
    exact hF.finishReg_eq s.drawn (hF.nextDraw_eq s)

theorem execJal_eq (s : State) (target : Addr26) : mapNext F (execJal target (F s)) = mapNext F (execJal target s) := by
  simp only [execJal, hF.pc_eq, hF.write_comm]
  exact hF.jump_eq _ rfl

theorem effectiveAddress_eq (s : State) (rs : Reg) (imm : Imm) :
    effectiveAddress (F s) rs imm = effectiveAddress s rs imm := by
  simp only [effectiveAddress, hF.read_eq]

theorem execLoad_eq (s : State) (w : Width) (rt rs : Reg) (imm : Imm) :
    mapNext F (execLoad w rt imm rs (F s)) = mapNext F (execLoad w rt imm rs s) := by
  simp only [execLoad, hF.effectiveAddress_eq, loadAt_congr (hF.mem_eq s) (hF.cfg_eq s)]
  cases loadAt s w (effectiveAddress s rs imm) with
  | ok v => exact hF.finishReg_eq s rfl
  | trap e => exact hF.raise_eq s e
  | fault f => rfl
  | refused r => rfl

theorem execStore_eq (s : State) (w : Width) (rt rs : Reg) (imm : Imm) :
    mapNext F (execStore w rt imm rs (F s)) = mapNext F (execStore w rt imm rs s) := by
  simp only [execStore, storeAt, hF.effectiveAddress_eq, hF.read_eq, hF.cfg_eq, hF.store_comm]
  split
  · exact hF.raise_eq s _
  · split
    · rfl
    · split
      · rfl
      · simp only [settle_ok, mapNext_next, hF.advance_comm, hF.twice]

/-- Nothing but mfhi and mflo can tell whether `F` came before the instruction. -/
theorem exec_eq {i : Instr} (s : State) (hr : readsHiLo i = true → (F s).hi = s.hi ∧ (F s).lo = s.lo) :
    mapNext F (exec i (F s)) = mapNext F (exec i s) := by
  cases i with
  | add | sub | addi => exact hF.writeExact_eq s (by simp only [hF.read_eq])
  | mult | multu => exact hF.finishProduct_eq s (by simp only [hF.read_eq])
  | div rs rt => exact hF.execDiv_eq s rs rt
  | divu rs rt => exact hF.execDivu_eq s rs rt
  | mfhi => exact hF.finishReg_eq s (hr rfl).1
  | mflo => exact hF.finishReg_eq s (hr rfl).2
  | mfc0 rt rd => exact hF.execMfc0_eq s rt rd
  | beq | bne => exact hF.branchIf_eq s (by simp only [hF.read_eq])
  | lw | lbu | lhu => exact hF.execLoad_eq s _ _ _ _
  | sw | sb | sh => exact hF.execStore_eq s _ _ _ _
  | jr rs => exact hF.jump_eq s (hF.read_eq s rs)
  | j target => exact hF.jump_eq s (by rw [hF.pc_eq])
  | jal target => exact hF.execJal_eq s target
  | _ => exact hF.finishReg_eq s (by simp only [hF.read_eq])

end Overwrite

/-! ## CauseCode and BadVAddr, HI and LO -/

/-- Settles O24: both states are the same once CauseCode and BadVAddr are cleared. -/
theorem noInstructionReadsCauseOrBadVAddr : Obligations.NoInstructionReadsCauseOrBadVAddr := by
  intro i s c b
  have hc : ∀ u : State, mapNext State.clearCause (exec i u.clearCause) = mapNext State.clearCause (exec i u) :=
    fun u => overwrite_clearCause.exec_eq u fun _ => ⟨rfl, rfl⟩
  exact (hc { s with causeCode := c, badVAddr := b }).symm.trans (hc s)

/-- HI and LO are lost in a multiply or divide. -/
theorem exec_writeHiLo_of_writes {i : Instr} (s : State) (h l : Word) (hw : writesHiLo i = true) :
    exec i (s.writeHiLo h l) = exec i s := by
  cases i with
  | mult | multu | div | divu => rfl
  | _ => cases hw

theorem writeHiLo_self {t : State} {h l : Word} (hh : t.hi = h) (hl : t.lo = l) : t.writeHiLo h l = t := by
  subst hh hl
  rfl

/-- Where HI and LO are neither read nor written, overwriting them commutes with the instruction. -/
theorem exec_writeHiLo_of_keeps {i : Instr} (s : State) (h l : Word) (hr : readsHiLo i = false)
    (hw : writesHiLo i = false) :
    exec i (s.writeHiLo h l) = mapNext (fun t => t.writeHiLo h l) (exec i s) := by
  have he := (overwrite_hiLo h l).exec_eq (i := i) s fun hr' => absurd (hr.symm.trans hr') Bool.false_ne_true
  rw [← he]
  cases ht : exec i (s.writeHiLo h l) with
  | next t =>
    obtain ⟨hhi, hlo⟩ := exec_keeps_hiLo hw ht
    exact congrArg Host.Outcome.next (writeHiLo_self hhi hlo).symm
  | fault f => rfl
  | refused r => rfl

/-- Settles O23: a multiply or divide writes over HI and LO, and every other instruction passes them on. -/
theorem onlyMovesReadHiLo : Obligations.OnlyMovesReadHiLo := by
  intro i s h l hr
  cases hw : writesHiLo i with
  | true => exact (exec_writeHiLo_of_writes s h l hw).trans (mapNext_id _).symm
  | false => exact exec_writeHiLo_of_keeps s h l hr hw

end Sys2Proof.Machine
end

section
/-! SUPPORT. Memory: which steps change it and where (R66, R70, R74), where a fetch, a load or a store stops (R66, R69, R74,
R171), the address of a data access (R68, R170), and what a load sees of a store (R64, R65). -/

namespace Sys2Proof.Machine

/-! ## Which steps change memory, and where -/

theorem RegisterEffect.sameMemory {s t : State} (h : RegisterEffect s t) : SameMemory s t := by
  obtain ⟨r, v, p, n, rfl⟩ := h
  exact byteAt_congr (writeReg_mem s r v)

theorem HiLoEffect.sameMemory {s t : State} (h : HiLoEffect s t) : SameMemory s t := by
  obtain ⟨hi, lo, n, rfl⟩ := h
  exact fun _ => rfl

/-- A store has checked that none of its bytes lies in `TEXT` and that all are populated. -/
theorem StoreEffect.keeps_byteAt {s t : State} (h : StoreEffect s t) {a : Word}
    (ha : inText s.cfg a = true ∨ inDomain s.cfg a = false) : t.byteAt a = s.byteAt a := by
  obtain ⟨w, b, v, rfl, -, htext, hdom⟩ := h
  refine (memWrite_stored s w b v).outside a ?_
  rintro k hk rfl
  rcases ha with hin | hout
  · exact Bool.false_ne_true ((not_inText_of_span htext hk).symm.trans hin)
  · exact Bool.false_ne_true (hout.symm.trans (inDomain_of_span hdom hk))

/-- Settles O20: of the effects of a step only a store changes memory, and its checks keep it out of those bytes. -/
theorem stepKeepsTextAndUnpopulatedBytes : Obligations.StepKeepsTextAndUnpopulatedBytes := by
  intro s t a h ha
  rcases step_effect h with ⟨e, rfl⟩ | hr | hl | hm
  · exact byteAt_trapState s e a
  · exact hr.sameMemory a
  · exact hl.sameMemory a
  · exact hm.keeps_byteAt ha

/-- Settles O21: trap entry, a register result and a write of HI and LO all leave memory alone. -/
theorem onlyStoresWriteMemory : Obligations.OnlyStoresWriteMemory := by
  intro i s t hi h
  rcases exec_next h with ⟨e, rfl⟩ | ⟨hr, -⟩ | ⟨hl, -⟩ | ⟨-, hs⟩
  · exact byteAt_trapState s e
  · exact hr.sameMemory
  · exact hl.sameMemory
  · exact absurd (hi.symm.trans hs) Bool.false_ne_true

/-! ## Where a fetch stops -/

theorem not_populated_iff (s : State) (a : Word) (n : Nat) : ¬ Populated s a n ↔ spanInDomain s.cfg a n = false := by
  rw [populated_iff, Bool.not_eq_true]

theorem not_clear_iff (s : State) (a : Word) (n : Nat) : ¬ ClearOfText s a n ↔ spanMeetsText s.cfg a n = true := by
  rw [clear_iff, Bool.not_eq_false]

theorem step_of_fetch_fault {s : State} {f : Fault} (hrun : Running s) (h : fetchWord s = .fault f) :
    step s = .fault f := by
  rw [step_of_running hrun, h, settle_fault]

theorem step_of_fetch_refused {s : State} {r : Refusal} (hrun : Running s) (h : fetchWord s = .refused r) :
    step s = .refused r := by
  rw [step_of_running hrun, h, settle_refused]

section
variable {s : State} (hpc : s.pc.toNat % 4 = 0)
include hpc

theorem pc_aligned : aligned .word s.pc = true := (aligned_iff .word s.pc).mpr hpc

theorem fetchWord_outside (h : ¬ Populated s s.pc 4) : fetchWord s = .fault (.outsideMemory s.pc) := by
  simp [fetchWord, pc_aligned hpc, (not_populated_iff s s.pc 4).mp h]

theorem fetchWord_outsideText (h : Populated s s.pc 4) (ht : inText s.cfg s.pc = false) :
    fetchWord s = .refused (.fetchOutsideText s.pc) := by
  simp [fetchWord, pc_aligned hpc, (populated_iff s s.pc 4).mp h, ht]

theorem fetchWord_inside (h : Populated s s.pc 4) (ht : inText s.cfg s.pc = true) :
    fetchWord s = memRead s .word s.pc := by
  simp [fetchWord, pc_aligned hpc, (populated_iff s s.pc 4).mp h, ht]

end

/-- A read names the lowest byte that has no value (log 9). -/
theorem memRead_lowest_unwritten {s : State} {w : Width} {a : Word} {k : Nat} (hk : k < widthBytes w)
    (hnone : s.byteAt (a + BitVec.ofNat 32 k) = none)
    (hlow : ∀ j < k, s.byteAt (a + BitVec.ofNat 32 j) ≠ none) :
    memRead s w a = .fault (.unwrittenByte (a + BitVec.ofNat 32 k)) := by
  rcases readLanes_cases s (widthBytes w) a (widthBytes w) with ⟨v, -, hall⟩ | ⟨j, -, hf, hj, hbelow⟩
  · exact absurd hnone (Option.isSome_iff_ne_none.mp (hall k hk))
  · rcases Nat.lt_trichotomy j k with hlt | rfl | hgt
    · exact absurd hj (hlow j hlt)
    · exact hf
    · exact absurd hnone (Option.isSome_iff_ne_none.mp (hbelow k hgt))

/-- Settles O11: the checks of the fetch in the order of R69, then the read of the word. -/
theorem fetchStopsOutsideMemoryAndText : Obligations.FetchStopsOutsideMemoryAndText := by
  intro s hrun hpc
  refine ⟨fun hd => ?_, fun hd ht => ?_, fun k hk hd ht hnone hlow => ?_⟩
  · exact step_of_fetch_fault hrun (fetchWord_outside hpc hd)
  · exact step_of_fetch_refused hrun (fetchWord_outsideText hpc hd ht)
  · exact step_of_fetch_fault hrun ((fetchWord_inside hpc hd ht).trans (memRead_lowest_unwritten hk hnone hlow))

/-! ## Which instructions stop, and where -/

/-- An exact result that does not fit is a trap, and a trap is a next state. -/
theorem writeExact_exists_next (s : State) (r : Reg) (e : Int) : ∃ t, writeExact s r e = .next t := by
  rcases writeExact_cases s r e with ⟨-, h⟩ | ⟨-, h⟩
  · exact ⟨_, h⟩
  · exact ⟨_, h⟩

theorem ite_exists_next {c : Prop} [Decidable c] {x y : Result} (hx : ∃ t, x = .next t) (hy : ∃ t, y = .next t) :
    ∃ t, (if c then x else y) = .next t := by
  split
  · exact hx
  · exact hy

theorem exec_exists_next {i : Instr} (s : State) (h : dataAccess i = none) : ∃ t, exec i s = .next t := by
  cases i with
  | lw | lbu | lhu | sw | sb | sh => cases h
  | add | sub | addi => exact writeExact_exists_next s _ _
  | div | divu | mfc0 => exact ite_exists_next ⟨_, rfl⟩ ⟨_, rfl⟩
  | _ => exact ⟨_, rfl⟩

/-- `i` is the load of the width `w` with the data access `d`. -/
structure IsLoad (i : Instr) (w : Width) (d : DataAccess) : Prop where
  reads : storesMemory i = false
  size : d.size = widthBytes w
  exec_eq : ∃ rt, ∀ s, exec i s = execLoad w rt d.offset d.base s

/-- `i` is the store of the width `w` with the data access `d`. -/
structure IsStore (i : Instr) (w : Width) (d : DataAccess) : Prop where
  stores : storesMemory i = true
  size : d.size = widthBytes w
  exec_eq : ∃ rt, ∀ s, exec i s = execStore w rt d.offset d.base s

/-- An instruction with a data access is one of the three loads or of the three stores (R70, R171). -/
theorem isLoad_or_isStore {i : Instr} {d : DataAccess} (h : dataAccess i = some d) :
    ∃ w, IsLoad i w d ∨ IsStore i w d := by
  cases i with
  | lw rt => cases h; exact ⟨.word, .inl ⟨rfl, rfl, rt, fun _ => rfl⟩⟩
  | lbu rt => cases h; exact ⟨.byte, .inl ⟨rfl, rfl, rt, fun _ => rfl⟩⟩
  | lhu rt => cases h; exact ⟨.half, .inl ⟨rfl, rfl, rt, fun _ => rfl⟩⟩
  | sw rt => cases h; exact ⟨.word, .inr ⟨rfl, rfl, rt, fun _ => rfl⟩⟩
  | sb rt => cases h; exact ⟨.byte, .inr ⟨rfl, rfl, rt, fun _ => rfl⟩⟩
  | sh rt => cases h; exact ⟨.half, .inr ⟨rfl, rfl, rt, fun _ => rfl⟩⟩
  | _ => cases h

/-- An instruction that answers no next state has a data access. -/
theorem isLoad_or_isStore_of_stops {i : Instr} {s : State} (h : ∀ t, exec i s ≠ .next t) :
    ∃ d w, dataAccess i = some d ∧ (IsLoad i w d ∨ IsStore i w d) := by
  cases hd : dataAccess i with
  | none =>
    obtain ⟨t, ht⟩ := exec_exists_next s hd
    exact absurd ht (h t)
  | some d =>
    obtain ⟨w, hw⟩ := isLoad_or_isStore hd
    exact ⟨d, w, rfl, hw⟩

section
variable {i : Instr} {w : Width} {d : DataAccess} {s : State} {f : Fault} {r : Refusal}

theorem IsLoad.fault_cause (hi : IsLoad i w d) (h : exec i s = .fault f) :
    (d.address s).toNat % d.size = 0
      ∧ ((f = .outsideMemory (d.address s) ∧ ¬ Populated s (d.address s) d.size)
        ∨ (Populated s (d.address s) d.size
          ∧ ∃ k < d.size, s.byteAt (d.address s + BitVec.ofNat 32 k) = none
            ∧ f = .unwrittenByte (d.address s + BitVec.ofNat 32 k))) := by
  obtain ⟨-, hsize, rt, hexec⟩ := hi
  have hload : loadAt s w (d.address s) = .fault f :=
    (settle_fault_iff fun _ => ⟨_, rfl⟩).mp ((hexec s).symm.trans h)
  rw [hsize, not_populated_iff, populated_iff, ← aligned_iff]
  exact loadAt_fault hload

theorem IsLoad.not_refused (hi : IsLoad i w d) : exec i s ≠ .refused r := by
  obtain ⟨-, -, rt, hexec⟩ := hi
  intro h
  exact loadAt_not_refused ((settle_refused_iff fun _ => ⟨_, rfl⟩).mp ((hexec s).symm.trans h))

theorem IsStore.fault_cause (hi : IsStore i w d) (h : exec i s = .fault f) :
    (d.address s).toNat % d.size = 0 ∧ ClearOfText s (d.address s) d.size
      ∧ ¬ Populated s (d.address s) d.size ∧ f = .outsideMemory (d.address s) := by
  obtain ⟨-, hsize, rt, hexec⟩ := hi
  have hstore : storeAt s w (d.address s) (s.readReg rt) = .fault f :=
    (settle_fault_iff fun _ => ⟨_, rfl⟩).mp ((hexec s).symm.trans h)
  rw [hsize, not_populated_iff, clear_iff, ← aligned_iff]
  exact storeAt_fault hstore

theorem IsStore.refused_cause (hi : IsStore i w d) (h : exec i s = .refused r) :
    (d.address s).toNat % d.size = 0 ∧ ¬ ClearOfText s (d.address s) d.size ∧ r = .storeIntoText (d.address s) := by
  obtain ⟨-, hsize, rt, hexec⟩ := hi
  have hstore : storeAt s w (d.address s) (s.readReg rt) = .refused r :=
    (settle_refused_iff fun _ => ⟨_, rfl⟩).mp ((hexec s).symm.trans h)
  rw [hsize, not_clear_iff, ← aligned_iff]
  exact storeAt_refused hstore

end

/-- Settles O28: an instruction that stops is a load or a store, and the checks of each say what it stops at. -/
theorem onlyMemoryAccessesStop : Obligations.OnlyMemoryAccessesStop := by
  refine ⟨fun i s h => exec_exists_next s h, fun i s f h => ?_, fun i s r h => ?_⟩
  · obtain ⟨d, w, hd, hl | hs⟩ := isLoad_or_isStore_of_stops (i := i) (s := s) (by simp [h])
    · obtain ⟨ha, ⟨hf, hout⟩ | ⟨hin, hbyte⟩⟩ := hl.fault_cause h
      · exact ⟨d, hd, ha, .inl ⟨hf, hout, fun hst => absurd (hl.reads.symm.trans hst) Bool.false_ne_true⟩⟩
      · exact ⟨d, hd, ha, .inr ⟨hl.reads, hin, hbyte⟩⟩
    · obtain ⟨ha, htext, hout, hf⟩ := hs.fault_cause h
      exact ⟨d, hd, ha, .inl ⟨hf, hout, fun _ => htext⟩⟩
  · obtain ⟨d, w, hd, hl | hs⟩ := isLoad_or_isStore_of_stops (i := i) (s := s) (by simp [h])
    · exact absurd h hl.not_refused
    · obtain ⟨ha, htext, hr⟩ := hs.refused_cause h
      exact ⟨d, hd, ha, hs.stores, htext, hr⟩

theorem execLoad_of_loadAt_fault {s : State} {w : Width} {rt rs : Reg} {imm : Imm} {f : Fault}
    (h : loadAt s w (effectiveAddress s rs imm) = .fault f) : execLoad w rt imm rs s = .fault f := by
  rw [execLoad, h, settle_fault]

theorem loadAt_unwritten {s : State} {w : Width} {a : Word} (ha : aligned w a = true)
    (hd : spanInDomain s.cfg a (widthBytes w) = true)
    (hnone : ∃ k < widthBytes w, s.byteAt (a + BitVec.ofNat 32 k) = none) :
    ∃ k < widthBytes w, s.byteAt (a + BitVec.ofNat 32 k) = none
      ∧ loadAt s w a = .fault (.unwrittenByte (a + BitVec.ofNat 32 k)) := by
  obtain ⟨k, hk, hkn⟩ := hnone
  rcases readLanes_cases s (widthBytes w) a (widthBytes w) with ⟨v, -, hall⟩ | ⟨j, hj, hf, hjn, -⟩
  · exact absurd hkn (Option.isSome_iff_ne_none.mp (hall k hk))
  · exact ⟨j, hj, hjn, (loadAt_inside ha hd).trans hf⟩

/-- A load of any width past its alignment check. -/
theorem execLoad_stops {s : State} {w : Width} {rt rs : Reg} {imm : Imm}
    (ha : (effectiveAddress s rs imm).toNat % widthBytes w = 0) :
    (¬ Populated s (effectiveAddress s rs imm) (widthBytes w) →
        execLoad w rt imm rs s = .fault (.outsideMemory (effectiveAddress s rs imm)))
      ∧ (Populated s (effectiveAddress s rs imm) (widthBytes w) →
        (∃ k < widthBytes w, s.byteAt (effectiveAddress s rs imm + BitVec.ofNat 32 k) = none) →
        ∃ k < widthBytes w, s.byteAt (effectiveAddress s rs imm + BitVec.ofNat 32 k) = none
          ∧ execLoad w rt imm rs s = .fault (.unwrittenByte (effectiveAddress s rs imm + BitVec.ofNat 32 k))) := by
  have hal := (aligned_iff w _).mpr ha
  refine ⟨fun hd => ?_, fun hd hnone => ?_⟩
  · exact execLoad_of_loadAt_fault (loadAt_outside hal ((not_populated_iff s _ _).mp hd))
  · obtain ⟨k, hk, hkn, hf⟩ := loadAt_unwritten hal ((populated_iff s _ _).mp hd) hnone
    exact ⟨k, hk, hkn, execLoad_of_loadAt_fault hf⟩

/-- Settles O47: lw, lhu and lbu are the load of their width. -/
theorem loadsStopWithoutMemory : Obligations.LoadsStopWithoutMemory := by
  intro s rt imm rs p hp ha
  simp only [List.mem_cons, List.not_mem_nil, or_false] at hp
  rcases hp with rfl | rfl | rfl
  · exact execLoad_stops (w := .word) ha
  · exact execLoad_stops (w := .half) ha
  · exact execLoad_stops (w := .byte) ha

/-! ## The address of a data access -/

/-- Settles O43: `sext` is the signed value modulo 2^32, and `BitVec.ofInt` maps sums to sums. -/
theorem effectiveAddressWraps : Obligations.EffectiveAddressWraps := by
  intro s rs imm
  calc effectiveAddress s rs imm = s.readReg rs + BitVec.ofInt 32 imm.toInt := rfl
    _ = BitVec.ofInt 32 (s.readReg rs).toNat + BitVec.ofInt 32 imm.toInt := by
      rw [BitVec.ofInt_natCast, BitVec.ofNat_toNat, BitVec.setWidth_eq]
    _ = BitVec.ofInt 32 ((s.readReg rs).toNat + imm.toInt) := (BitVec.ofInt_add _ _).symm

/-! ## What a load sees of a store -/

/-- A load whose access gives a value completes with it. -/
theorem completes_of_loadAt {i : Instr} {s : State} {w : Width} {rt rs : Reg} {imm : Imm} {v : Word}
    (hi : exec i s = execLoad w rt imm rs s) (h : loadAt s w (effectiveAddress s rs imm) = .ok v) :
    CompletesWith i s rt v :=
  completes_of_finishReg (by rw [hi, execLoad, h, settle_ok])

/-- The value of a field of a word, by division. -/
theorem setWidth_extract_eq_ofNat (v : Word) (start len : Nat) :
    (v.extractLsb' start len).setWidth 32 = BitVec.ofNat 32 (v.toNat / 2 ^ start % 2 ^ len) := by
  apply BitVec.eq_of_toNat_eq
  rw [BitVec.toNat_setWidth, BitVec.extractLsb'_toNat, BitVec.toNat_ofNat, Nat.shiftRight_eq_div_pow]

theorem setWidth_laneByte (v : Word) (l : Nat) :
    (laneByte v l).setWidth 32 = BitVec.ofNat 32 (v.toNat / 256 ^ l % 256) := by
  have hpow : 2 ^ (8 * l) = 256 ^ l := Nat.pow_mul 2 8 l
  rw [laneByte, setWidth_extract_eq_ofNat, hpow]
  rfl

theorem laneByte_append_half (v : Word) : laneByte v 1 ++ laneByte v 0 = v.extractLsb' 0 16 :=
  BitVec.extractLsb'_append_extractLsb'_eq_extractLsb' rfl

theorem laneByte_append_word (v : Word) : laneByte v 3 ++ laneByte v 2 ++ laneByte v 1 ++ laneByte v 0 = v := by
  have h32 : laneByte v 3 ++ laneByte v 2 = v.extractLsb' 16 16 :=
    BitVec.extractLsb'_append_extractLsb'_eq_extractLsb' rfl
  have h321 : v.extractLsb' 16 16 ++ laneByte v 1 = v.extractLsb' 8 24 :=
    BitVec.extractLsb'_append_extractLsb'_eq_extractLsb' rfl
  have h3210 : v.extractLsb' 8 24 ++ laneByte v 0 = v.extractLsb' 0 32 :=
    BitVec.extractLsb'_append_extractLsb'_eq_extractLsb' rfl
  rw [h32, h321, h3210, BitVec.extractLsb'_eq_self]

/-- The bytes of an access at `a` are those of `v` in the byte order of the run (R65). -/
def HoldsLanes (s : State) (w : Width) (a v : Word) : Prop :=
  ∀ k < widthBytes w, s.byteAt (a + BitVec.ofNat 32 k) = some (laneByte v (lane s.cfg.endian (widthBytes w) k))

theorem memWrite_holdsLanes (s : State) (w : Width) (a v : Word) : HoldsLanes (memWrite s w a v).advance w a v :=
  fun _ hk => byteAt_memWrite_same s w a v hk

theorem memRead_byte_of_holdsLanes {s : State} {a v : Word} (h : HoldsLanes s .byte a v) :
    memRead s .byte a = .ok (BitVec.ofNat 32 (v.toNat % 256)) := by
  have h0 := h 0 (by decide)
  rw [BitVec.add_zero] at h0
  rw [memRead_byte s a h0, setWidth_laneByte]
  cases s.cfg.endian <;> simp [lane, widthBytes]

theorem memRead_half_of_holdsLanes {s : State} {a v : Word} (h : HoldsLanes s .half a v) :
    memRead s .half a = .ok (BitVec.ofNat 32 (v.toNat % 65536)) := by
  have h0 := h 0 (by decide)
  have h1 := h 1 (by decide)
  rw [BitVec.add_zero] at h0
  have hv := setWidth_extract_eq_ofNat v 0 16
  rw [← laneByte_append_half, pow_zero, Nat.div_one] at hv
  rw [memRead_half s a h0 h1]
  cases s.cfg.endian with
  | little => exact congrArg Access.ok hv
  | big => exact congrArg Access.ok hv

theorem memRead_word_of_holdsLanes {s : State} {a v : Word} (h : HoldsLanes s .word a v) :
    memRead s .word a = .ok v := by
  have h0 := h 0 (by decide)
  rw [BitVec.add_zero] at h0
  rw [memRead_word s a h0 (h 1 (by decide)) (h 2 (by decide)) (h 3 (by decide))]
  cases s.cfg.endian with
  | little => exact congrArg Access.ok (laneByte_append_word v)
  | big => exact congrArg Access.ok (laneByte_append_word v)

/-- A load straight after an aligned store of its width completes with what its read of the stored bytes gives. -/
theorem completes_after_execStore {s t : State} {w : Width} {rt rd rs : Reg} {imm : Imm} {i : Instr} {x : Word}
    (ha : aligned w (effectiveAddress s rs imm) = true) (h : execStore w rt imm rs s = .next t)
    (hi : exec i t = execLoad w rd imm rs t)
    (hread : HoldsLanes t w (effectiveAddress s rs imm) (s.readReg rt) →
      memRead t w (effectiveAddress s rs imm) = .ok x) : CompletesWith i t rd x := by
  obtain ⟨rfl, hload⟩ := execLoad_after_execStore (rd := rd) h ha
  refine completes_of_finishReg (hi.trans (hload.trans ?_))
  rw [hread (memWrite_holdsLanes s w _ _), settle_ok]

/-- Settles O51: the load reads back the lanes of what was stored. -/
theorem loadAfterStoreGivesStoredValue : Obligations.LoadAfterStoreGivesStoredValue := by
  intro s t rt rd imm rs
  refine ⟨fun ha h => ?_, fun ha h => ?_, fun h => ?_⟩
  · exact completes_after_execStore (w := .word) ((aligned_iff _ _).mpr ha) h rfl memRead_word_of_holdsLanes
  · exact completes_after_execStore (w := .half) ((aligned_iff _ _).mpr ha) h rfl memRead_half_of_holdsLanes
  · exact completes_after_execStore (w := .byte) ((aligned_iff _ _).mpr (Nat.mod_one _)) h rfl
      memRead_byte_of_holdsLanes

/-- An aligned store that answers a next state passed its checks: it is populated, and it put its lanes into memory. -/
theorem execStore_stored {s t : State} {w : Width} {rt rs : Reg} {imm : Imm}
    (ha : aligned w (effectiveAddress s rs imm) = true) (h : execStore w rt imm rs s = .next t) :
    spanInDomain s.cfg (effectiveAddress s rs imm) (widthBytes w) = true
      ∧ t = (memWrite s w (effectiveAddress s rs imm) (s.readReg rt)).advance := by
  rcases settle_next h with ⟨u, hu, hk⟩ | ⟨e, he, -⟩
  · obtain ⟨rfl, -, -, hd⟩ := storeAt_ok hu
    cases hk
    exact ⟨hd, rfl⟩
  · exact absurd (ha.symm.trans (storeAt_trap he).2) Bool.false_ne_true.symm

theorem loadAt_byte {s : State} {a : Word} {b : Byte} (hd : inDomain s.cfg a = true) (hb : s.byteAt a = some b) :
    loadAt s .byte a = .ok (b.setWidth 32) := by
  have ha : aligned .byte a = true := (aligned_iff _ _).mpr (Nat.mod_one _)
  have hspan : spanInDomain s.cfg a (widthBytes .byte) = true := by simp [spanInDomain, widthBytes, hd]
  rw [loadAt_inside ha hspan, memRead_byte s a hb]

/-- Settles O52: the byte at `a + k` is the lane that the store put there. -/
theorem byteLoadSeesLaneOfStoredWord : Obligations.ByteLoadSeesLaneOfStoredWord := by
  intro s t rt rd imm off rs k hk ha hoff h
  obtain ⟨hspan, rfl⟩ := execStore_stored (w := .word) ((aligned_iff _ _).mpr ha) h
  have hload := loadAt_byte (s := (memWrite s .word (effectiveAddress s rs imm) (s.readReg rt)).advance)
    (inDomain_of_span hspan hk) (byteAt_memWrite_same s .word _ _ hk)
  rw [setWidth_laneByte, ← hoff] at hload
  have hc := completes_of_loadAt (i := .lbu rd off rs) (rt := rd) rfl hload
  cases he : s.cfg.endian with
  | little => simpa [he, lane, widthBytes] using hc
  | big => simpa [he, lane, widthBytes] using hc

end Sys2Proof.Machine
end

section
/-! SUPPORT. The decoder and the encoder are inverse to each other (R110, R113), the decoder makes the choice of the match
and mask table (R110, R111), and what it ignores without `STRICT_ZERO_FIELDS` (R113). -/

namespace Sys2Proof

/-! ## Words of the three formats (R91, R95, R96) -/

theorem rWord_inj {rs rs' rt rt' rd rd' : Reg} {sh sh' : Shamt} {fn fn' : BitVec 6} :
    rWord rs rt rd sh fn = rWord rs' rt' rd' sh' fn' ↔ rs = rs' ∧ rt = rt' ∧ rd = rd' ∧ sh = sh' ∧ fn = fn' := by
  constructor
  · intro h
    exact ⟨by simpa using congrArg fieldRs h, by simpa using congrArg fieldRt h, by simpa using congrArg fieldRd h,
      by simpa using congrArg fieldShamt h, by simpa using congrArg fieldFunct h⟩
  · rintro ⟨rfl, rfl, rfl, rfl, rfl⟩
    rfl

theorem iWord_inj {op op' : BitVec 6} {rs rs' rt rt' : Reg} {imm imm' : Imm} :
    iWord op rs rt imm = iWord op' rs' rt' imm' ↔ op = op' ∧ rs = rs' ∧ rt = rt' ∧ imm = imm' := by
  constructor
  · intro h
    exact ⟨by simpa using congrArg fieldOp h, by simpa using congrArg fieldRs h, by simpa using congrArg fieldRt h,
      by simpa using congrArg fieldImm h⟩
  · rintro ⟨rfl, rfl, rfl, rfl⟩
    rfl

theorem jWord_inj {op op' : BitVec 6} {target target' : Addr26} :
    jWord op target = jWord op' target' ↔ op = op' ∧ target = target' := by
  constructor
  · intro h
    exact ⟨by simpa using congrArg fieldOp h, by simpa using congrArg fieldAddr26 h⟩
  · rintro ⟨rfl, rfl⟩
    rfl

theorem exists_rWord_eq {w : Word} (h : fieldOp w = 0#6) : ∃ rs rt rd sh fn, w = rWord rs rt rd sh fn :=
  ⟨_, _, _, _, _, (rWord_fields w h).symm⟩

theorem exists_iWord_eq (w : Word) : ∃ op rs rt imm, w = iWord op rs rt imm :=
  ⟨_, _, _, _, (iWord_fields w).symm⟩

theorem exists_jWord_eq (w : Word) : ∃ op target, w = jWord op target :=
  ⟨_, _, (jWord_fields w).symm⟩

theorem iWord_of_fieldOp {w : Word} {op : BitVec 6} (h : fieldOp w = op) :
    iWord op (fieldRs w) (fieldRt w) (fieldImm w) = w :=
  h ▸ iWord_fields w

theorem jWord_of_fieldOp {w : Word} {op : BitVec 6} (h : fieldOp w = op) : jWord op (fieldAddr26 w) = w :=
  h ▸ jWord_fields w

/-- Where bits 10:0 are zero, the immediate holds the rd field and nothing else (R109). -/
theorem fieldImm_of_lowBits_zero {w : Word} (h : w.extractLsb' 0 11 = 0#11) : fieldImm w = fieldRd w ++ 0#11 := by
  rw [← h]
  apply BitVec.eq_of_getLsbD_eq
  intro i hi
  simp only [fieldImm, fieldRd, BitVec.getLsbD_append, BitVec.getLsbD_extractLsb']
  grind

/-! ## The round trip (R110, R113) -/

theorem decode_rWord (strict : Bool) (rs rt rd : Reg) (sh : Shamt) (fn : BitVec 6) :
    decode strict (rWord rs rt rd sh fn) = decodeFunct strict (rWord rs rt rd sh fn) := by
  simp only [decode, fieldOp_rWord]

/-- Decoding inverts the encoder: the fields of the word are the operands, and the guard finds the unused ones zero. -/
theorem decode_encode (strict : Bool) (i : Instr) : decode strict (encode i) = .ok i := by
  cases i with
  | mfc0 | addi | addiu | slti | sltiu | andi | ori | beq | bne | lw | lbu | lhu | sb | sh | sw | lui =>
    simp [encode, decode]
  | j | jal => simp [encode, decode]
  | _ => simp [encode, decode_rWord, decodeFunct]

/-- Settles O1. -/
theorem decodeOfEncodeIsIdentity : Obligations.DecodeOfEncodeIsIdentity :=
  decode_encode

/-- What the strict guard accepts has the word that its zero fields make it have. -/
theorem encode_of_guardZero {k i : Instr} {w : Word} {b : Bool} (h : guardZero true b k = .ok i)
    (hk : b = true → encode k = w) : encode i = w := by
  obtain ⟨rfl, hb⟩ := guardZero_ok h
  exact hk (hb rfl)

theorem encode_of_decodeFunct {w : Word} {i : Instr} (hop : fieldOp w = 0#6) (h : decodeFunct true w = .ok i) :
    encode i = w := by
  have hw := rWord_fields w hop
  unfold decodeFunct at h
  split at h
  case h_22 => cases h
  all_goals
    next hfn =>
    rw [hfn] at hw
    refine encode_of_guardZero h fun hz => ?_
    simp only [Bool.and_eq_true, beq_iff_eq] at hz
    simpa [encode, hz] using hw

/-- Encoding inverts the strict decoder: it has found every field that is no operand to be what the encoder writes. -/
theorem encode_of_decode {w : Word} {i : Instr} (h : decode true w = .ok i) : encode i = w := by
  unfold decode at h
  split at h
  case h_1 hop => exact encode_of_decodeFunct hop h
  case h_2 hop | h_3 hop =>
    cases h
    exact jWord_of_fieldOp hop
  case h_12 hop =>
    refine encode_of_guardZero h fun hrs => ?_
    have hw := iWord_of_fieldOp hop
    rwa [beq_iff_eq.mp hrs] at hw
  case h_13 hop =>
    dsimp only at h
    split at h
    · next hz =>
      cases h
      rw [Bool.and_eq_true, beq_iff_eq, beq_iff_eq] at hz
      obtain ⟨hrs, hlow⟩ := hz
      have hw := iWord_of_fieldOp hop
      rwa [hrs, fieldImm_of_lowBits_zero hlow] at hw
    · cases h
  case h_20 => cases h
  all_goals
    next hop =>
    cases h
    exact iWord_of_fieldOp hop

/-- Settles O2. -/
theorem strictDecodeAcceptsOnlyEncodings : Obligations.StrictDecodeAcceptsOnlyEncodings :=
  fun _ _ h => encode_of_decode h

theorem decode_lenient_of_strict {w : Word} {i : Instr} (h : decode true w = .ok i) : decode false w = .ok i :=
  encode_of_decode h ▸ decode_encode false i

/-! ## Which bits the row of an instruction fixes (R110) -/

/-- The mask of an R-format row: opcode and funct, and the given fields. -/
def rMask (rs rt rd : Reg) (sh : Shamt) : Word :=
  BitVec.allOnes 6 ++ rs ++ rt ++ rd ++ sh ++ BitVec.allOnes 6

/-- The mask of an I-format row: the opcode and the given field. -/
def iMask (rs : Reg) : Word := iWord (BitVec.allOnes 6) rs 0#5 0#16

/-- The mask of a J-format row: the opcode. -/
def jMask : Word := jWord (BitVec.allOnes 6) 0#26

/-- The mask of mfc0: opcode, rs and bits 10:0 (R109). -/
def cop0Mask : Word := iWord (BitVec.allOnes 6) 0x1F 0 0x7FF

/-- The bits that the row of an instruction fixes: all but those of its operands (R103). -/
def fixedMask : Instr → Word
  | .sll _ _ _ | .srl _ _ _ | .sra _ _ _ => rMask 0x1F 0 0 0
  | .mult _ _ | .multu _ _ | .div _ _ | .divu _ _ => rMask 0 0 0x1F 0x1F
  | .mfhi _ | .mflo _ => rMask 0x1F 0x1F 0 0x1F
  | .jr _ => rMask 0 0x1F 0x1F 0x1F
  | .add _ _ _ | .addu _ _ _ | .sub _ _ _ | .subu _ _ _ | .and _ _ _ | .or _ _ _ | .xor _ _ _ | .nor _ _ _
  | .slt _ _ _ | .sltu _ _ _ | .srlv _ _ _ => rMask 0 0 0 0x1F
  | .mfc0 _ _ => cop0Mask
  | .lui _ _ => iMask 0x1F
  | .j _ | .jal _ => jMask
  | _ => iMask 0

/-- A mask of all ones on a five-bit field leaves it as it is. -/
theorem and_fullField (x : BitVec 5) : x &&& 0x1F#5 = x := BitVec.and_allOnes

theorem rFields_and_rFields (op op' : BitVec 6) (rs rs' rt rt' rd rd' : Reg) (sh sh' : Shamt) (fn fn' : BitVec 6) :
    (op ++ rs ++ rt ++ rd ++ sh ++ fn) &&& (op' ++ rs' ++ rt' ++ rd' ++ sh' ++ fn')
      = (op &&& op') ++ (rs &&& rs') ++ (rt &&& rt') ++ (rd &&& rd') ++ (sh &&& sh') ++ (fn &&& fn') := by
  simp only [BitVec.and_append]

theorem rWord_and_rMask (rs rt rd ms mt md : Reg) (sh msh : Shamt) (fn : BitVec 6) :
    rWord rs rt rd sh fn &&& rMask ms mt md msh = rWord (rs &&& ms) (rt &&& mt) (rd &&& md) (sh &&& msh) fn := by
  have h := rFields_and_rFields 0#6 (BitVec.allOnes 6) rs ms rt mt rd md sh msh fn (BitVec.allOnes 6)
  rw [BitVec.and_allOnes, BitVec.and_allOnes] at h
  exact h

theorem not_rMask (rs rt rd : Reg) (sh : Shamt) :
    ~~~rMask rs rt rd sh = rWord (~~~rs) (~~~rt) (~~~rd) (~~~sh) 0 := by
  have h : ~~~(BitVec.allOnes 6 ++ rs ++ rt ++ rd ++ sh ++ BitVec.allOnes 6)
      = 0#6 ++ ~~~rs ++ ~~~rt ++ ~~~rd ++ ~~~sh ++ 0#6 := by
    rw [← BitVec.not_allOnes]
    simp only [BitVec.not_append]
  exact h

theorem rWord_and_not_rMask (rs rt rd ms mt md : Reg) (sh msh : Shamt) (fn : BitVec 6) :
    rWord rs rt rd sh fn &&& ~~~rMask ms mt md msh
      = rWord (rs &&& ~~~ms) (rt &&& ~~~mt) (rd &&& ~~~md) (sh &&& ~~~msh) 0 := by
  have h := rFields_and_rFields 0#6 0#6 rs (~~~ms) rt (~~~mt) rd (~~~md) sh (~~~msh) fn 0#6
  rw [BitVec.and_zero, BitVec.and_zero] at h
  rw [not_rMask]
  exact h

theorem iWord_and_iWord (op op' : BitVec 6) (rs rs' rt rt' : Reg) (imm imm' : Imm) :
    iWord op rs rt imm &&& iWord op' rs' rt' imm'
      = iWord (op &&& op') (rs &&& rs') (rt &&& rt') (imm &&& imm') := by
  have h : (op ++ rs ++ rt ++ imm) &&& (op' ++ rs' ++ rt' ++ imm')
      = (op &&& op') ++ (rs &&& rs') ++ (rt &&& rt') ++ (imm &&& imm') := by
    simp only [BitVec.and_append]
  exact h

theorem not_iWord (op : BitVec 6) (rs rt : Reg) (imm : Imm) :
    ~~~iWord op rs rt imm = iWord (~~~op) (~~~rs) (~~~rt) (~~~imm) := by
  have h : ~~~(op ++ rs ++ rt ++ imm) = ~~~op ++ ~~~rs ++ ~~~rt ++ ~~~imm := by
    simp only [BitVec.not_append]
  exact h

theorem iWord_and_iMask (op : BitVec 6) (rs rt ms : Reg) (imm : Imm) :
    iWord op rs rt imm &&& iMask ms = iWord op (rs &&& ms) 0 0 := by
  rw [iMask, iWord_and_iWord, BitVec.and_allOnes, BitVec.and_zero, BitVec.and_zero]
  rfl

theorem iWord_and_not_iMask (op : BitVec 6) (rs rt ms : Reg) (imm : Imm) :
    iWord op rs rt imm &&& ~~~iMask ms = iWord 0 (rs &&& ~~~ms) rt imm := by
  rw [iMask, not_iWord, iWord_and_iWord, BitVec.not_allOnes, BitVec.and_zero, BitVec.not_zero, BitVec.not_zero,
    BitVec.and_allOnes, BitVec.and_allOnes]
  rfl

theorem jWord_and_jMask (op : BitVec 6) (target : Addr26) : jWord op target &&& jMask = jWord op 0 := by
  have h : (op ++ target) &&& (BitVec.allOnes 6 ++ 0#26) = op ++ 0#26 := by
    rw [BitVec.and_append, BitVec.and_allOnes, BitVec.and_zero]
  exact h

theorem jWord_and_not_jMask (op : BitVec 6) (target : Addr26) : jWord op target &&& ~~~jMask = jWord 0 target := by
  have h : (op ++ target) &&& ~~~(BitVec.allOnes 6 ++ 0#26) = 0#6 ++ target := by
    rw [BitVec.not_append, BitVec.and_append, BitVec.not_allOnes, BitVec.not_zero, BitVec.and_allOnes, BitVec.and_zero]
  exact h

theorem encode_mfc0_and_cop0Mask (rt rd : Reg) : encode (.mfc0 rt rd) &&& cop0Mask = iWord 0x10 0 0 0 := by
  have himm : (rd ++ 0#11) &&& (0#5 ++ 0x7FF#11) = (rd &&& 0#5) ++ (0#11 &&& 0x7FF#11) := BitVec.and_append
  rw [BitVec.and_zero] at himm
  rw [encode, cop0Mask, iWord_and_iWord]
  exact iWord_inj.mpr ⟨rfl, rfl, BitVec.and_zero, himm⟩

/-- What two words that agree under a mask share: every field that the mask covers. -/
theorem extractLsb'_eq_of_and_eq {a b m : Word} {start len : Nat} (h : a &&& m = b &&& m)
    (hm : m.extractLsb' start len = BitVec.allOnes len) : a.extractLsb' start len = b.extractLsb' start len := by
  have hx := congrArg (BitVec.extractLsb' start len) h
  rwa [BitVec.extractLsb'_and, BitVec.extractLsb'_and, hm, BitVec.and_allOnes, BitVec.and_allOnes] at hx

theorem fieldOp_and_rMask (w : Word) (rs rt rd : Reg) (sh : Shamt) : fieldOp (w &&& rMask rs rt rd sh) = fieldOp w := by
  have hm : fieldOp (rMask rs rt rd sh) = BitVec.allOnes 6 := by
    simp only [fieldOp, rMask]
    ext i hi
    simp only [BitVec.getElem_extractLsb', BitVec.getLsbD_append]
    grind
  rw [fieldOp, BitVec.extractLsb'_and]
  exact (congrArg (fieldOp w &&& ·) hm).trans BitVec.and_allOnes

/-! ## The rows of the table (R110, R111) -/

/-- The row of an instruction: its word with the operands masked out, and the bits that are fixed. -/
def opcodeRowOf (i : Instr) : OpcodeRow := ⟨mnemonicOf i, encode i &&& fixedMask i, fixedMask i⟩

theorem opcodeRowOf_mem (i : Instr) : opcodeRowOf i ∈ opcodeRows := by
  unfold opcodeRowOf
  cases i with
  | mfc0 =>
    simp only [fixedMask, encode_mfc0_and_cop0Mask, mnemonicOf]
    decide
  | addi | addiu | slti | sltiu | andi | ori | beq | bne | lw | lbu | lhu | sb | sh | sw | lui =>
    simp only [encode, fixedMask, iWord_and_iMask, BitVec.and_zero, BitVec.ofNat_eq_ofNat, mnemonicOf]
    decide
  | j | jal =>
    simp only [encode, fixedMask, jWord_and_jMask, mnemonicOf]
    decide
  | _ =>
    simp only [encode, fixedMask, rWord_and_rMask, BitVec.and_zero, BitVec.ofNat_eq_ofNat, mnemonicOf]
    decide

/-- The pattern of a row is the word of its instruction with every operand zero. -/
theorem decode_pattern : ∀ r ∈ opcodeRows, (decode true r.pattern).toOption.map opcodeRowOf = some r := by
  decide

/-- So every row is the row of an instruction. -/
theorem exists_opcodeRowOf_eq {r : OpcodeRow} (hr : r ∈ opcodeRows) : ∃ i, opcodeRowOf i = r := by
  obtain ⟨i, -, hi⟩ := Option.map_eq_some_iff.mp (decode_pattern r hr)
  exact ⟨i, hi⟩

theorem opcodeRows_mnemonic_nodup : (opcodeRows.map OpcodeRow.mnemonic).Nodup := by decide

theorem eq_opcodeRowOf {r : OpcodeRow} {i : Instr} (hr : r ∈ opcodeRows) (hm : r.mnemonic = mnemonicOf i) :
    r = opcodeRowOf i :=
  List.inj_on_of_nodup_map opcodeRows_mnemonic_nodup hr (opcodeRowOf_mem i) hm

theorem hits_iff (r : OpcodeRow) (w : Word) : r.hits w = true ↔ w &&& r.mask = r.pattern := beq_iff_eq

theorem opcodeRowOf_hits_iff (i : Instr) (w : Word) :
    (opcodeRowOf i).hits w = true ↔ w &&& fixedMask i = encode i &&& fixedMask i :=
  hits_iff (opcodeRowOf i) w

/-! ## At most one row matches (R110) -/

/-- Two rows ask for different values of a bit that both fix. -/
def Clash (r₁ r₂ : OpcodeRow) : Prop := r₁.pattern &&& r₂.mask ≠ r₂.pattern &&& r₁.mask

theorem Clash.not_both_hit {r₁ r₂ : OpcodeRow} (h : Clash r₁ r₂) {w : Word} (h₁ : r₁.hits w = true) :
    ¬ r₂.hits w = true := by
  intro h₂
  rw [hits_iff] at h₁ h₂
  apply h
  rw [← h₁, ← h₂, BitVec.and_assoc, BitVec.and_assoc, BitVec.and_comm r₁.mask]

theorem opcodeRows_pairwise_clash : opcodeRows.Pairwise Clash := by
  unfold Clash
  decide

/-- Settles O4: any two different rows clash. -/
theorem opcodeRowsAreDisjoint : Obligations.OpcodeRowsAreDisjoint := by
  intro w r₁ hr₁ r₂ hr₂ h₁ h₂
  have hsymm : Std.Symm Clash := ⟨fun _ _ => Ne.symm⟩
  by_contra hne
  exact (opcodeRows_pairwise_clash.forall hr₁ hr₂ hne).not_both_hit h₁ h₂

/-! ## The decoder and the table (R110) -/

/-- A word that has the fixed bits of an instruction's row decodes to an instruction of that row. -/
theorem decode_mnemonic_of_fixedMask {w : Word} {i : Instr} (h : w &&& fixedMask i = encode i &&& fixedMask i) :
    (decode true w).map mnemonicOf = .ok (mnemonicOf i) := by
  cases i with
  | mfc0 rt rd =>
    rw [fixedMask] at h
    have hop : fieldOp w = 0x10#6 := (extractLsb'_eq_of_and_eq h (by decide)).trans (fieldOp_iWord ..)
    have hrs : fieldRs w = 0#5 := (extractLsb'_eq_of_and_eq h (by decide)).trans (fieldRs_iWord ..)
    have hlow : w.extractLsb' 0 11 = 0#11 := (extractLsb'_eq_of_and_eq h (by decide)).trans (lowBits_iWord ..)
    simp [decode, hop, hrs, hlow, Except.map, mnemonicOf]
  | addi | addiu | slti | sltiu | andi | ori | beq | bne | lw | lbu | lhu | sb | sh | sw | lui =>
    obtain ⟨op, rs, rt, imm, rfl⟩ := exists_iWord_eq w
    simp only [encode, fixedMask, iWord_and_iMask, iWord_inj, BitVec.ofNat_eq_ofNat, and_fullField] at h
    simp [decode, h, Except.map, mnemonicOf]
  | j | jal =>
    obtain ⟨op, target, rfl⟩ := exists_jWord_eq w
    simp only [encode, fixedMask, jWord_and_jMask, jWord_inj] at h
    simp [decode, h, Except.map, mnemonicOf]
  | _ =>
    have hop := congrArg fieldOp h
    rw [fixedMask, fieldOp_and_rMask, fieldOp_and_rMask, encode, fieldOp_rWord] at hop
    obtain ⟨rs, rt, rd, sh, fn, rfl⟩ := exists_rWord_eq hop
    simp only [encode, fixedMask, rWord_and_rMask, rWord_inj, BitVec.ofNat_eq_ofNat, and_fullField] at h
    simp [decode_rWord, decodeFunct, h, Except.map, mnemonicOf]

/-- Settles O3: a word that decodes is an encoding, which its row matches; and a row is that of some instruction, whose
fixed bits the word then has. -/
theorem decoderAgreesWithOpcodeTable : Obligations.DecoderAgreesWithOpcodeTable := by
  intro w m
  constructor
  · rintro ⟨i, hd, rfl⟩
    refine ⟨opcodeRowOf i, opcodeRowOf_mem i, ?_, rfl⟩
    rw [opcodeRowOf_hits_iff, encode_of_decode hd]
  · rintro ⟨r, hr, hw, rfl⟩
    obtain ⟨k, rfl⟩ := exists_opcodeRowOf_eq hr
    have hm := decode_mnemonic_of_fixedMask ((opcodeRowOf_hits_iff k w).mp hw)
    cases hd : decode true w with
    | ok i =>
      rw [hd] at hm
      exact ⟨i, rfl, Except.ok.inj hm⟩
    | error err =>
      rw [hd] at hm
      cases hm

/-! ## Unused fields without `STRICT_ZERO_FIELDS` (R113) -/

/-- Without `STRICT_ZERO_FIELDS`, the opcode, the funct and the operands decide what a word decodes to, but for opcode
0x10. -/
theorem decode_lenient_of_operands {w : Word} {i : Instr} (hcop : fieldOp (encode i) ≠ 0x10)
    (hop : fieldOp w = fieldOp (encode i)) (hfn : fieldOp (encode i) = 0 → fieldFunct w = fieldFunct (encode i))
    (h : w &&& ~~~fixedMask i = encode i &&& ~~~fixedMask i) : decode false w = .ok i := by
  cases i with
  | mfc0 => exact absurd (fieldOp_iWord ..) hcop
  | addi | addiu | slti | sltiu | andi | ori | beq | bne | lw | lbu | lhu | sb | sh | sw | lui =>
    obtain ⟨op, rs, rt, imm, rfl⟩ := exists_iWord_eq w
    rw [encode, fieldOp_iWord, fieldOp_iWord] at hop
    simp only [encode, fixedMask, iWord_and_not_iMask, iWord_inj, BitVec.ofNat_eq_ofNat, BitVec.not_zero,
      BitVec.reduceAllOnes, and_fullField] at h
    simp [decode, hop, h]
  | j | jal =>
    obtain ⟨op, target, rfl⟩ := exists_jWord_eq w
    rw [encode, fieldOp_jWord, fieldOp_jWord] at hop
    simp only [encode, fixedMask, jWord_and_not_jMask, jWord_inj] at h
    simp [decode, hop, h]
  | _ =>
    rw [encode, fieldOp_rWord] at hop hfn
    obtain ⟨rs, rt, rd, sh, fn, rfl⟩ := exists_rWord_eq hop
    rw [fieldFunct_rWord, fieldFunct_rWord] at hfn
    simp only [encode, fixedMask, rWord_and_not_rMask, rWord_inj, BitVec.ofNat_eq_ofNat, BitVec.reduceNot,
      and_fullField] at h
    simp [decode_rWord, decodeFunct, hfn, h]

/-- Settles O5: the word that decodes is the encoding of its instruction, and the given row is that instruction's. -/
theorem unusedFieldsIgnoredWhenNotStrict : Obligations.UnusedFieldsIgnoredWhenNotStrict := by
  refine ⟨fun _ _ => decode_lenient_of_strict, ?_⟩
  intro w w' i r hr hd hm hcop hop hfn hops
  obtain rfl := eq_opcodeRowOf hr hm
  obtain rfl := encode_of_decode hd
  exact decode_lenient_of_operands hcop hop hfn hops

end Sys2Proof
end

section
/-! SUPPORT. What a step does with a reserved word (R112, R214), and the word zero (R114). -/

namespace Sys2Proof.Machine

theorem decodeFetched_of_error {s : State} {w : Word} {err : DecodeError}
    (h : decode s.cfg.strictZeroFields w = .error err) : decodeFetched s w = .trap (.reservedInstruction w) := by
  simp only [decodeFetched, h]

/-- Settles O9: whichever reason the decoder gives, the fetched word raises the one exception. -/
theorem reservedEncodingTraps : Obligations.ReservedEncodingTraps := by
  intro s w err hf hd
  refine ⟨trapState (.reservedInstruction w) s, ?_, trapState_entered _ s⟩
  rw [step_of_fetches hf, decodeFetched_of_error hd, settle_trap]

/-- A shift into register 0 is discarded: only the pc moves (R31, R151). -/
theorem exec_sll_zero (rt : Reg) (sh : Shamt) (s : State) : exec (.sll 0 rt sh) s = .next (s.jump (s.pc + 4)) := rfl

/-- Settles O7: the word 0 is the encoding of sll with every operand zero. -/
theorem zeroWordChangesOnlyThePc : Obligations.ZeroWordChangesOnlyThePc :=
  ⟨fun strict => decode_encode strict (.sll 0 0 0), fun s => ⟨_, exec_sll_zero 0 0 s, jump_went s (s.pc + 4)⟩⟩

end Sys2Proof.Machine
end

section
/-! SUPPORT. Words of the spec's worked examples and the instructions they stand for (R110). -/

namespace Sys2Proof

/-- Settles O6: each word is the encoding of its instruction, which decoding gives back. -/
theorem wordsOfTheSpecDecode : Obligations.WordsOfTheSpecDecode :=
  ⟨decode_encode true (.add 1 2 3), decode_encode true (.sll 1 2 10), decode_encode true (.srl 1 2 10),
    decode_encode true (.srlv 1 2 9), decode_encode true (.mult 2 3), decode_encode true (.lw 1 100 2),
    decode_encode true (.sw 1 100 2), decode_encode true (.beq 1 2 25), decode_encode true (.j 0x9C4),
    decode_encode true (.jr 31), decode_encode true (.mfc0 1 14), decode_encode true (.lui 1 100)⟩

end Sys2Proof
end

section
/-! SUPPORT. Addition and subtraction: where the exact result fits 32 bits (R130), what add, sub and addi do there and
elsewhere (R133, R135, R137), and the wrapped result of addu, subu and addiu (R131, R134, R136, R138) with the carry out
of it (R192). -/

namespace Sys2Proof.Machine

/-! ## The exact and the wrapped result -/

theorem ofInt_sub (m n : Int) : BitVec.ofInt 32 (m - n) = BitVec.ofInt 32 m - BitVec.ofInt 32 n := by
  rw [Int.sub_eq_add_neg, BitVec.ofInt_add, BitVec.ofInt_neg, BitVec.sub_eq_add_neg]

theorem ofInt_toNat (a : Word) : BitVec.ofInt 32 a.toNat = a := by
  rw [BitVec.ofInt_natCast, BitVec.ofNat_toNat, BitVec.setWidth_eq]

/-- The exact sum modulo 2^32 is the wrapped sum. -/
theorem ofInt_exactSum (a b : Word) : BitVec.ofInt 32 (exactSum a b) = a + b := by
  rw [exactSum, BitVec.ofInt_add, BitVec.ofInt_toInt, BitVec.ofInt_toInt]

/-- The exact difference modulo 2^32 is the wrapped difference. -/
theorem ofInt_exactDifference (a b : Word) : BitVec.ofInt 32 (exactDifference a b) = a - b := by
  rw [exactDifference, ofInt_sub, BitVec.ofInt_toInt, BitVec.ofInt_toInt]

theorem exactSum_sext (a : Word) (imm : Imm) : exactSum a (sext imm) = a.toInt + imm.toInt := by
  rw [exactSum, sext, BitVec.toInt_signExtend_of_le (by decide)]

/-! ## Where the exact result fits (R130) -/

theorem fitsSigned_iff (e : Int) : fitsSigned e = true ↔ FitsWord e := by
  simp only [fitsSigned, FitsWord, Bool.and_eq_true, decide_eq_true_eq]

/-- The library's test of signed overflow is R130's range, and `BitVec.saddOverflow_eq` gives its bits. -/
theorem not_fitsWord_exactSum_iff (a b : Word) :
    ¬ FitsWord (exactSum a b) ↔ a.msb = b.msb ∧ (a + b).msb ≠ a.msb := by
  have hrange : ¬ FitsWord (exactSum a b) ↔ a.saddOverflow b = true := by
    simp only [FitsWord, exactSum, BitVec.saddOverflow, Bool.or_eq_true, decide_eq_true_eq]
    omega
  rw [hrange, BitVec.saddOverflow_eq]
  simp

/-- The same for the difference, with `BitVec.ssubOverflow_eq`. -/
theorem not_fitsWord_exactDifference_iff (a b : Word) :
    ¬ FitsWord (exactDifference a b) ↔ a.msb ≠ b.msb ∧ (a - b).msb ≠ a.msb := by
  have hrange : ¬ FitsWord (exactDifference a b) ↔ a.ssubOverflow b = true := by
    simp only [FitsWord, exactDifference, BitVec.ssubOverflow, Bool.or_eq_true, decide_eq_true_eq]
    omega
  rw [hrange, BitVec.ssubOverflow_eq]
  cases a.msb <;> cases b.msb <;> simp

/-! ## add, sub and addi -/

section
variable {s : State} {r : Reg} {e : Int} {v : Word} {i : Instr}

theorem writeExact_of_fits (hv : BitVec.ofInt 32 e = v) (h : FitsWord e) :
    writeExact s r e = .next (s.finishReg r v) :=
  hv ▸ if_pos ((fitsSigned_iff e).mpr h)

theorem writeExact_of_not_fits (h : ¬ FitsWord e) : writeExact s r e = .next (trapState .overflow s) :=
  if_neg (mt (fitsSigned_iff e).mp h)

theorem completes_of_writeExact (hi : exec i s = writeExact s r e) (hv : BitVec.ofInt 32 e = v) (h : FitsWord e) :
    CompletesWith i s r v :=
  completes_of_finishReg (hi.trans (writeExact_of_fits hv h))

theorem raises_of_writeExact (hi : exec i s = writeExact s r e) (h : ¬ FitsWord e) :
    RaisesTrap i s .overflow 12 none :=
  raises_of_trapState (hi.trans (writeExact_of_not_fits h))

end

theorem exec_addi (rt rs : Reg) (imm : Imm) (s : State) :
    exec (.addi rt rs imm) s = writeExact s rt ((s.readReg rs).toInt + imm.toInt) :=
  congrArg (writeExact s rt) (exactSum_sext (s.readReg rs) imm)

/-- Settles O30: the three instructions end in the exact write of their sum or difference. -/
theorem signedArithmeticCompletesOrOverflows : Obligations.SignedArithmeticCompletesOrOverflows := by
  intro s rd rs rt imm
  have haddi := exec_addi rt rs imm s
  exact ⟨completes_of_writeExact rfl rfl, raises_of_writeExact rfl, completes_of_writeExact rfl rfl,
    raises_of_writeExact rfl, completes_of_writeExact haddi rfl, raises_of_writeExact haddi⟩

/-- Settles O31: the bit-level test says where the exact result does not fit; where it fits, it is the wrapped one. -/
theorem overflowIsTheBitLevelTest : Obligations.OverflowIsTheBitLevelTest := by
  intro s rd rs rt
  rw [← not_fitsWord_exactSum_iff, ← not_fitsWord_exactDifference_iff, not_not, not_not]
  exact ⟨⟨raises_of_writeExact rfl, completes_of_writeExact rfl (ofInt_exactSum _ _)⟩,
    raises_of_writeExact rfl, completes_of_writeExact rfl (ofInt_exactDifference _ _)⟩

/-! ## addu, subu and addiu -/

theorem exec_addiu (rt rs : Reg) (imm : Imm) (s : State) :
    exec (.addiu rt rs imm) s = .next (s.finishReg rt (BitVec.ofInt 32 ((s.readReg rs).toInt + imm.toInt))) := by
  rw [← exactSum_sext, ofInt_exactSum]
  rfl

/-- Settles O32: where the exact result fits, both forms write it modulo 2^32. -/
theorem unsignedFormsAgreeWhereNoOverflow : Obligations.UnsignedFormsAgreeWhereNoOverflow := by
  intro s rd rs rt imm
  refine ⟨writeExact_of_fits (ofInt_exactSum _ _), writeExact_of_fits (ofInt_exactDifference _ _), fun h => ?_⟩
  rw [exec_addi, exec_addiu, writeExact_of_fits rfl h]

/-- Settles O33: addition and subtraction of words are those of their values modulo 2^32. -/
theorem unsignedArithmeticWraps : Obligations.UnsignedArithmeticWraps := by
  intro s rd rs rt imm
  refine ⟨completes_of_finishReg rfl, ?_, completes_of_finishReg (exec_addiu rt rs imm s)⟩
  rw [ofInt_sub, ofInt_toNat, ofInt_toNat]
  exact completes_of_finishReg rfl

/-! ## The carry out of an addition (R192) -/

theorem exec_sltu (rd rs rt : Reg) (s : State) :
    exec (.sltu rd rs rt) s = .next (s.finishReg rd (truthWord (lessUnsigned (s.readReg rs) (s.readReg rt)))) := rfl

/-- A wrapped sum is less than its first operand iff the exact one is 2^32 or more. -/
theorem truthWord_lessUnsigned_sum (a b : Word) :
    truthWord (lessUnsigned (a + b) a) = if 4294967296 ≤ a.toNat + b.toNat then 1 else 0 := by
  have hcarry : (a + b).toNat < a.toNat ↔ 4294967296 ≤ a.toNat + b.toNat := by
    rw [BitVec.toNat_add]
    omega
  simp only [truthWord, lessUnsigned, decide_eq_true_eq, hcarry]

/-- Settles O56: after the addu, the sum's register holds the wrapped sum, and `rs` what it held before. -/
theorem sltuRecoversCarry : Obligations.SltuRecoversCarry := by
  intro s sum carry rs rt hsum hrs
  refine ⟨s.finishReg sum (s.readReg rs + s.readReg rt), rfl, completes_of_finishReg ?_⟩
  have hread : (s.finishReg sum (s.readReg rs + s.readReg rt)).readReg sum = s.readReg rs + s.readReg rt :=
    (finishReg_wrote s sum _).written.trans (if_neg hsum)
  have hkept : (s.finishReg sum (s.readReg rs + s.readReg rt)).readReg rs = s.readReg rs :=
    (finishReg_wrote s sum _).others rs hrs
  rw [exec_sltu, hread, hkept, truthWord_lessUnsigned_sum]

end Sys2Proof.Machine
end

section
/-! SUPPORT. The zero-extended immediate of andi and ori (R140), the logical instructions bit by bit (R141 to R146), and
lui followed by ori (R146, R178). -/

namespace Sys2Proof.Machine

/-! ## The 16-bit immediate as a word -/

theorem zext_eq_append (imm : Imm) : zext imm = 0#16 ++ imm := BitVec.setWidth_eq_append (by decide)

/-- Bits 31:16 are zero, the others are the immediate's (R140). -/
theorem getLsbD_zext (imm : Imm) (k : Nat) : (zext imm).getLsbD k = (decide (k < 16) && imm.getLsbD k) := by
  rw [zext_eq_append, BitVec.getLsbD_append]
  by_cases hk : k < 16 <;> simp [hk]

theorem upper_eq_ofNat (imm : Imm) : upper imm = BitVec.ofNat 32 (imm.toNat * 65536) := by
  apply BitVec.eq_of_toNat_eq
  rw [upper, BitVec.toNat_append, BitVec.toNat_ofNat, Nat.zero_mod, Nat.or_zero, Nat.shiftLeft_eq, BitVec.toNat_ofNat]
  omega

/-- The halves do not overlap. -/
theorem upper_or_zext (high low : Imm) : upper high ||| zext low = high ++ low := by
  rw [upper, zext_eq_append, BitVec.or_append, BitVec.or_zero, BitVec.zero_or]

/-! ## The logical instructions -/

theorem exec_ori (rt rs : Reg) (imm : Imm) (s : State) :
    exec (.ori rt rs imm) s = .next (s.finishReg rt (s.readReg rs ||| zext imm)) := rfl

/-- Settles O34: each instruction writes the bitwise operation on its operands, whose bits the library gives; those of
an immediate operand are `getLsbD_zext`. -/
theorem logicalOperationsBitByBit : Obligations.LogicalOperationsBitByBit := by
  intro s rd rs rt imm
  refine ⟨⟨_, completes_of_finishReg rfl, fun _ _ => BitVec.getLsbD_and⟩,
    ⟨_, completes_of_finishReg rfl, fun _ _ => BitVec.getLsbD_or⟩,
    ⟨_, completes_of_finishReg rfl, fun _ _ => BitVec.getLsbD_xor⟩,
    ⟨_, completes_of_finishReg rfl, fun k hk => ?nor⟩,
    ⟨_, completes_of_finishReg rfl, fun k _ => ?andi⟩,
    ⟨_, completes_of_finishReg (exec_ori rt rs imm s), fun k _ => ?ori⟩⟩
  case nor => rw [BitVec.getLsbD_not, BitVec.getLsbD_or, decide_eq_true hk, Bool.true_and]
  case andi => rw [BitVec.getLsbD_and, getLsbD_zext]
  case ori => rw [BitVec.getLsbD_or, getLsbD_zext]

/-! ## lui, then ori -/

theorem exec_lui (rt : Reg) (imm : Imm) (s : State) : exec (.lui rt imm) s = .next (s.finishReg rt (upper imm)) := rfl

/-- Settles O53: after the lui, its register holds the upper half, or zero where it is register 0. -/
theorem luiAndOriBuildConstants : Obligations.LuiAndOriBuildConstants := by
  intro s rt high low
  rw [← upper_eq_ofNat]
  refine ⟨completes_of_finishReg (exec_lui rt high s), _, exec_lui rt high s, completes_of_finishReg ?_⟩
  have hread : (s.finishReg rt (upper high)).readReg rt = if rt = 0 then 0#32 else upper high :=
    (finishReg_wrote s rt (upper high)).written
  rw [exec_ori, hread]
  by_cases h0 : rt = 0
  · rw [if_pos h0, if_pos h0, BitVec.zero_or, zext]
  · rw [if_neg h0, if_neg h0, upper_or_zext]

end Sys2Proof.Machine
end

section
/-! SUPPORT. The shifts (42_shift.md): each one bit by bit and as arithmetic on the value of the register it shifts (R151
to R153), and the shift by a register (R154). -/

namespace Sys2Proof.Machine

/-! ## A shifted word bit by bit -/

theorem getLsbD_shiftLeft_word (a : Word) (n : Nat) {k : Nat} (hk : k < 32) :
    (a <<< n).getLsbD k = (decide (n ≤ k) && a.getLsbD (k - n)) := by
  simp only [BitVec.getLsbD_shiftLeft, decide_eq_true hk, Bool.true_and, ← decide_not, Nat.not_lt]

/-- Bits 32 and up of a word read as zero: the bound on the left of the conjunction is the zero fill. -/
theorem getLsbD_ushiftRight_word (a : Word) (n k : Nat) :
    (a >>> n).getLsbD k = (decide (k + n < 32) && a.getLsbD (k + n)) := by
  rw [BitVec.getLsbD_ushiftRight, Nat.add_comm]
  by_cases hin : k + n < 32
  · rw [decide_eq_true hin, Bool.true_and]
  · rw [decide_eq_false hin, Bool.false_and, BitVec.getLsbD_of_ge a _ (Nat.le_of_not_lt hin)]

theorem getLsbD_sshiftRight_word (a : Word) (n : Nat) {k : Nat} (hk : k < 32) :
    (a.sshiftRight n).getLsbD k = if k + n < 32 then a.getLsbD (k + n) else a.getLsbD 31 := by
  rw [BitVec.getLsbD_sshiftRight, decide_eq_false (Nat.not_le.mpr hk), Bool.not_false, Bool.true_and, Nat.add_comm,
    BitVec.msb_eq_getLsbD_last]

/-! ## A shifted word as a product or a quotient -/

theorem shiftLeft_eq_ofNat_mul (a : Word) (n : Nat) : a <<< n = BitVec.ofNat 32 (a.toNat * 2 ^ n) := by
  apply BitVec.eq_of_toNat_eq
  rw [BitVec.toNat_shiftLeft, Nat.shiftLeft_eq, BitVec.toNat_ofNat]

/-- The quotient is no larger than the word, so nothing is lost modulo 2^32. -/
theorem ushiftRight_eq_ofNat_div (a : Word) (n : Nat) : a >>> n = BitVec.ofNat 32 (a.toNat / 2 ^ n) := by
  have hlt : a.toNat / 2 ^ n < 2 ^ 32 := (Nat.div_le_self _ _).trans_lt a.isLt
  apply BitVec.eq_of_toNat_eq
  rw [BitVec.toNat_ushiftRight, Nat.shiftRight_eq_div_pow, BitVec.toNat_ofNat, Nat.mod_eq_of_lt hlt]

/-- Division by a positive number rounds toward minus infinity in both of the library's forms. -/
theorem sshiftRight_eq_ofInt_fdiv (a : Word) (n : Nat) :
    a.sshiftRight n = BitVec.ofInt 32 (Int.fdiv a.toInt (2 ^ n)) := by
  rw [BitVec.sshiftRight_eq, Int.shiftRight_eq_div_pow, Int.fdiv_eq_ediv_of_nonneg _ (by positivity), Nat.cast_pow,
    Nat.cast_ofNat]

/-! ## The amount in a register (R101) -/

theorem toNat_shiftAmount (v : Word) : (shiftAmount v).toNat = v.toNat % 32 := by
  rw [shiftAmount, BitVec.extractLsb'_toNat, Nat.shiftRight_zero]

/-! ## The instructions -/

/-- Settles O35: each instruction writes its shift of the register, whose bits are those of the shifted word. -/
theorem constantShiftsBitByBit : Obligations.ConstantShiftsBitByBit := fun _ _ _ _ =>
  ⟨⟨_, completes_of_finishReg rfl, fun _ hk => getLsbD_shiftLeft_word _ _ hk⟩,
    ⟨_, completes_of_finishReg rfl, fun _ _ => getLsbD_ushiftRight_word _ _ _⟩,
    ⟨_, completes_of_finishReg rfl, fun _ hk => getLsbD_sshiftRight_word _ _ hk⟩⟩

/-- Settles O36: the shifted words are the product and the two quotients. -/
theorem constantShiftsAreArithmetic : Obligations.ConstantShiftsAreArithmetic := by
  intro s rd rt shamt
  rw [← shiftLeft_eq_ofNat_mul, ← ushiftRight_eq_ofNat_div, ← sshiftRight_eq_ofInt_fdiv]
  exact ⟨completes_of_finishReg rfl, completes_of_finishReg rfl, completes_of_finishReg rfl⟩

/-- Settles O37: the low five bits of the amount register are its value modulo 32. -/
theorem srlvShiftsByLowFiveBits : Obligations.SrlvShiftsByLowFiveBits := by
  intro s rd rt rs
  rw [← toNat_shiftAmount, ← ushiftRight_eq_ofNat_div]
  exact completes_of_finishReg rfl

end Sys2Proof.Machine
end

section
/-! SUPPORT. Multiplication and division: the product in HI and LO and its low word (R161, R162), the truncated quotient
and its remainder (R163, R164), the divisions the spec leaves open (U1, U2), and the moves from HI and LO (R165,
R166). -/

namespace Sys2Proof.Machine

/-! ## The moves -/

theorem exec_mflo (rd : Reg) (s : State) : exec (.mflo rd) s = .next (s.finishReg rd s.lo) := rfl

/-- Settles O41: both moves are instructions with one register result. -/
theorem movesFromHiLo : Obligations.MovesFromHiLo :=
  fun _ _ => ⟨completes_of_finishReg rfl, completes_of_finishReg (exec_mflo _ _)⟩

/-! ## The product in HI and LO -/

theorem exec_mult (rs rt : Reg) (s : State) :
    exec (.mult rs rt) s = finishProduct s (BitVec.ofInt 64 ((s.readReg rs).toInt * (s.readReg rt).toInt)) := rfl

theorem exec_multu (rs rt : Reg) (s : State) :
    exec (.multu rs rt) s = finishProduct s (BitVec.ofNat 64 ((s.readReg rs).toNat * (s.readReg rt).toNat)) := rfl

section
variable {i : Instr} {s : State} {p : BitVec 64}

/-- The two halves written are those of the product. -/
theorem wrote_of_finishProduct (hi : exec i s = finishProduct s p) :
    ∃ t h l, exec i s = .next t ∧ WroteHiLo s t h l ∧ (h ++ l : BitVec 64) = p :=
  ⟨_, _, _, hi, finishHiLo_wrote s _ _, BitVec.extractLsb'_append_extractLsb' (w := 32)⟩

/-- The very next instruction can read the low half (R160, R246). -/
theorem mflo_completes_of_finishProduct (hi : exec i s = finishProduct s p) (rd : Reg) :
    ∃ t, exec i s = .next t ∧ CompletesWith (.mflo rd) t rd (p.extractLsb' 0 32) :=
  ⟨_, hi, completes_of_finishReg (exec_mflo rd _)⟩

end

/-- A product of two 32-bit integers is at most 2^62 in magnitude, so 64 bits hold it exactly. -/
theorem toInt_ofInt_mul (a b : Word) : (BitVec.ofInt 64 (a.toInt * b.toInt)).toInt = a.toInt * b.toInt := by
  have hlow : -2 ^ 62 ≤ a.toInt * b.toInt := BitVec.le_toInt_mul_toInt
  have hhigh : a.toInt * b.toInt ≤ 2 ^ 62 := BitVec.toInt_mul_toInt_le
  exact BitVec.toInt_ofInt_eq_self (by decide) (by omega) (by omega)

theorem toNat_ofNat_mul (a b : Word) : (BitVec.ofNat 64 (a.toNat * b.toNat)).toNat = a.toNat * b.toNat :=
  (BitVec.toNat_ofNat _ _).trans (Nat.mod_eq_of_lt BitVec.toNat_mul_toNat_lt)

/-- Settles O38: the halves written join to the product modulo 2^64, which is the exact one. -/
theorem multiplyGivesExactProduct : Obligations.MultiplyGivesExactProduct := by
  intro s rs rt
  obtain ⟨t, h, l, hexec, hwrote, hjoin⟩ := wrote_of_finishProduct (exec_mult rs rt s)
  obtain ⟨t', h', l', hexec', hwrote', hjoin'⟩ := wrote_of_finishProduct (exec_multu rs rt s)
  exact ⟨⟨t, h, l, hexec, hwrote, (congrArg BitVec.toInt hjoin).trans (toInt_ofInt_mul _ _)⟩,
    t', h', l', hexec', hwrote', (congrArg BitVec.toNat hjoin').trans (toNat_ofNat_mul _ _)⟩

/-! ## The low word of the product -/

/-- Reduction modulo 2^64 and then modulo 2^32 is reduction modulo 2^32. -/
theorem extractLsb'_ofNat_64 (n : Nat) : (BitVec.ofNat 64 n).extractLsb' 0 32 = BitVec.ofNat 32 n := by
  rw [← BitVec.setWidth_eq_extractLsb' (by decide), BitVec.setWidth_ofNat_of_le (by decide)]

theorem extractLsb'_ofInt_64 (e : Int) : (BitVec.ofInt 64 e).extractLsb' 0 32 = BitVec.ofInt 32 e := by
  apply BitVec.eq_of_toNat_eq
  rw [BitVec.extractLsb'_toNat, BitVec.toNat_ofInt, BitVec.toNat_ofInt, Nat.shiftRight_zero]
  omega

theorem extractLsb'_signedProduct (a b : Word) :
    (BitVec.ofInt 64 (a.toInt * b.toInt)).extractLsb' 0 32 = a * b := by
  rw [extractLsb'_ofInt_64, BitVec.ofInt_mul, BitVec.ofInt_toInt, BitVec.ofInt_toInt]

theorem extractLsb'_unsignedProduct (a b : Word) :
    (BitVec.ofNat 64 (a.toNat * b.toNat)).extractLsb' 0 32 = a * b :=
  (extractLsb'_ofNat_64 _).trans BitVec.mul_def.symm

/-- Settles O42: the low words of both products are the product modulo 2^32. -/
theorem wrappedProductThroughMflo : Obligations.WrappedProductThroughMflo := by
  intro s rs rt rd
  have hsigned := mflo_completes_of_finishProduct (exec_mult rs rt s) rd
  have hunsigned := mflo_completes_of_finishProduct (exec_multu rs rt s) rd
  rw [extractLsb'_signedProduct] at hsigned
  rw [extractLsb'_unsignedProduct] at hunsigned
  exact ⟨hsigned, hunsigned⟩

/-! ## Quotient and remainder -/

/-- A remainder of truncated division is zero or has the sign of the dividend. -/
theorem tmod_eq_zero_or_neg_iff (m k : Int) : m.tmod k = 0 ∨ (m.tmod k < 0 ↔ m < 0) := by
  by_cases hdvd : k ∣ m
  · exact .inl (Int.tmod_eq_zero_of_dvd hdvd)
  · have hsign : (m.tmod k).sign = m.sign := (Int.sign_tmod m k).trans (if_neg hdvd)
    exact .inr (by rw [← Int.sign_eq_neg_one_iff_neg, hsign, Int.sign_eq_neg_one_iff_neg])

theorem natAbs_tmod_lt (m : Int) {k : Int} (hk : k ≠ 0) : (m.tmod k).natAbs < k.natAbs := by
  rw [Int.natAbs_tmod]
  exact Nat.mod_lt _ (Int.natAbs_pos.mpr hk)

theorem ofInt_tdiv (a b : Word) : BitVec.ofInt 32 (a.toInt.tdiv b.toInt) = a.sdiv b := by
  apply BitVec.eq_of_toInt_eq
  rw [BitVec.toInt_ofInt, BitVec.toInt_sdiv]

theorem ofInt_sub_tdiv_mul (a b : Word) :
    BitVec.ofInt 32 (a.toInt - a.toInt.tdiv b.toInt * b.toInt) = a.srem b := by
  rw [Int.mul_comm, ← Int.tmod_def, ← BitVec.toInt_srem, BitVec.ofInt_toInt]

theorem finishQuotient_eq (s : State) (a b : Word) :
    finishQuotient s a.toInt b.toInt = finishHiLo s (a.srem b) (a.sdiv b) := by
  rw [finishQuotient, ofInt_tdiv, ofInt_sub_tdiv_mul]

/-- The operands for which the spec fixes no signed quotient (U1, U2). -/
theorem signedDivisionOpen_iff (a b : Word) :
    signedDivisionOpen a b = true ↔ b = 0 ∨ (a = 0x80000000 ∧ b = 0xFFFFFFFF) := by
  simp only [signedDivisionOpen, Bool.or_eq_true, Bool.and_eq_true, beq_iff_eq]

section
variable {s : State} {rs rt : Reg}

theorem exec_div_of_open (h : s.readReg rt = 0 ∨ (s.readReg rs = 0x80000000 ∧ s.readReg rt = 0xFFFFFFFF)) :
    exec (.div rs rt) s = finishDrawn s :=
  if_pos ((signedDivisionOpen_iff _ _).mpr h)

theorem exec_div_of_not_open
    (h : ¬ (s.readReg rt = 0 ∨ (s.readReg rs = 0x80000000 ∧ s.readReg rt = 0xFFFFFFFF))) :
    exec (.div rs rt) s
      = finishHiLo s ((s.readReg rs).srem (s.readReg rt)) ((s.readReg rs).sdiv (s.readReg rt)) :=
  (if_neg (mt (signedDivisionOpen_iff _ _).mp h)).trans (finishQuotient_eq s _ _)

theorem exec_divu_of_zero (h : s.readReg rt = 0) : exec (.divu rs rt) s = finishDrawn s :=
  if_pos (beq_iff_eq.mpr h)

theorem exec_divu_of_ne_zero (h : s.readReg rt ≠ 0) :
    exec (.divu rs rt) s = finishHiLo s (s.readReg rs % s.readReg rt) (s.readReg rs / s.readReg rt) := by
  rw [BitVec.umod_def, BitVec.udiv_def]
  exact if_neg (mt beq_iff_eq.mp h)

end

/-- Settles O39: HI and LO hold the library's remainder and quotient of the two words; the signed quotient fits 32 bits
but for the operands left out. -/
theorem divideGivesQuotientAndRemainder : Obligations.DivideGivesQuotientAndRemainder := by
  intro s rs rt hzero
  refine ⟨fun hfits => ⟨_, _, _, exec_div_of_not_open (not_or.mpr ⟨hzero, hfits⟩), finishHiLo_wrote s _ _, ?signed⟩,
    _, _, _, exec_divu_of_ne_zero hzero, finishHiLo_wrote s _ _, ?unsigned⟩
  case signed =>
    have hquot := BitVec.toInt_sdiv_of_ne_or_ne (s.readReg rs) (s.readReg rt) (not_and_or.mp hfits)
    rw [hquot, BitVec.toInt_srem]
    exact ⟨(Int.tdiv_mul_add_tmod _ _).symm, natAbs_tmod_lt _ (BitVec.toInt_ne.mpr hzero), tmod_eq_zero_or_neg_iff _ _⟩
  case unsigned =>
    rw [BitVec.toNat_udiv, BitVec.toNat_umod]
    exact ⟨(Nat.div_add_mod' _ _).symm, Nat.mod_lt _ (Nat.pos_of_ne_zero fun h => hzero (BitVec.eq_of_toNat_eq h))⟩

/-! ## The divisions left open (U1, U2) -/

theorem drawn_of_finishDrawn {i : Instr} {s : State} (hi : exec i s = finishDrawn s) :
    ∃ t, exec i s = .next t
      ∧ WroteHiLo s t (Config.any32 s.draws) (Config.any32 (s.draws + 1)) (taken := 2) :=
  ⟨_, hi, drawn_finishHiLo_wrote s _ _⟩

/-- Settles O40: both instructions end in the two draws. -/
theorem openDivisionsLeaveDraws : Obligations.OpenDivisionsLeaveDraws :=
  fun _ _ _ => ⟨fun h => drawn_of_finishDrawn (exec_div_of_open h), fun h => drawn_of_finishDrawn (exec_divu_of_zero h)⟩

end Sys2Proof.Machine
end

section
/-! SUPPORT. Every load and every store in full (44_data_transfer.md): the address errors (R67), the stops of a store at
`TEXT` and outside `MEM_DOMAIN` (R66, R74, R171), the values loaded (R64, R172 to R174) and the bytes stored (R65, R175 to
R177). -/

namespace Sys2Proof.Machine

/-! ## Loads -/

section
variable {i : Instr} {s : State} {w : Width} {rt rs : Reg} {imm : Imm}

/-- The checks of a load end in its address error where the address is misaligned (R67). -/
theorem raises_of_execLoad_misaligned (hi : exec i s = execLoad w rt imm rs s)
    (ha : (effectiveAddress s rs imm).toNat % widthBytes w ≠ 0) :
    RaisesTrap i s (.addressErrorLoad (effectiveAddress s rs imm)) 4 (some (effectiveAddress s rs imm)) := by
  refine raises_of_trapState ?_
  rw [hi, execLoad, loadAt_misaligned ((not_aligned_iff w _).mpr ha), settle_trap]

/-- Past its checks a load completes with what it reads. -/
theorem completes_of_memRead {v : Word} (hi : exec i s = execLoad w rt imm rs s)
    (ha : (effectiveAddress s rs imm).toNat % widthBytes w = 0)
    (hd : Populated s (effectiveAddress s rs imm) (widthBytes w))
    (hread : memRead s w (effectiveAddress s rs imm) = .ok v) : CompletesWith i s rt v :=
  completes_of_loadAt hi ((loadAt_inside ((aligned_iff w _).mpr ha) ((populated_iff s _ _).mp hd)).trans hread)

end

/-- Zero-extension puts zeros above: a byte and a halfword as `lbu` and `lhu` write them (R173, R174). -/
theorem setWidth_byte_eq_append (b : Byte) : b.setWidth 32 = 0#24 ++ b :=
  BitVec.setWidth_eq_append (by decide)

theorem setWidth_half_eq_append (b₁ b₀ : Byte) : (b₁ ++ b₀ : BitVec 16).setWidth 32 = 0#16 ++ b₁ ++ b₀ :=
  (BitVec.setWidth_eq_append (by decide)).trans BitVec.append_assoc'

/-- Settles O44: the read of an aligned, populated word is the word of its bytes. -/
theorem loadWordLoadsOrTraps : Obligations.LoadWordLoadsOrTraps := by
  intro s rt imm rs
  refine ⟨raises_of_execLoad_misaligned (w := .word) rfl, fun b0 b1 b2 b3 ha hd hb => ?_⟩
  have hread := memRead_word s _ hb.byte0 hb.byte1 hb.byte2 hb.byte3
  have hc := completes_of_memRead (i := .lw rt imm rs) rfl ha hd hread
  cases he : s.cfg.endian with
  | little => simpa only [he, bytesWord] using hc
  | big => simpa only [he, bytesWord] using hc

/-- Settles O45: the read of an even, populated halfword is the zero-extension of its two bytes. -/
theorem loadHalfwordLoadsOrTraps : Obligations.LoadHalfwordLoadsOrTraps := by
  intro s rt imm rs
  refine ⟨raises_of_execLoad_misaligned (w := .half) rfl, fun b0 b1 ha hd h0 h1 => ?_⟩
  have hc := completes_of_memRead (i := .lhu rt imm rs) rfl ha hd (memRead_half s _ h0 h1)
  cases he : s.cfg.endian with
  | little => simpa only [he, setWidth_half_eq_append] using hc
  | big => simpa only [he, setWidth_half_eq_append] using hc

/-- Settles O46: every address is a multiple of 1, and the byte read is zero-extended. -/
theorem loadByteLoads : Obligations.LoadByteLoads := by
  intro s rt imm rs b0 hd h0
  rw [← setWidth_byte_eq_append]
  exact completes_of_memRead (w := .byte) rfl (Nat.mod_one _) hd (memRead_byte s _ h0)

/-! ## Stores -/

section
variable {i : Instr} {s : State} {w : Width} {rt rs : Reg} {imm : Imm}

/-- A misaligned store raises its address error (R67). -/
theorem raises_of_execStore_misaligned (hi : exec i s = execStore w rt imm rs s)
    (ha : (effectiveAddress s rs imm).toNat % widthBytes w ≠ 0) :
    RaisesTrap i s (.addressErrorStore (effectiveAddress s rs imm)) 5 (some (effectiveAddress s rs imm)) := by
  refine raises_of_trapState ?_
  rw [hi, execStore, storeAt_misaligned ((not_aligned_iff w _).mpr ha), settle_trap]

theorem execStore_refused_at_text (ha : (effectiveAddress s rs imm).toNat % widthBytes w = 0)
    (ht : ¬ ClearOfText s (effectiveAddress s rs imm) (widthBytes w)) :
    execStore w rt imm rs s = .refused (.storeIntoText (effectiveAddress s rs imm)) := by
  rw [execStore, storeAt_text ((aligned_iff w _).mpr ha) ((not_clear_iff s _ _).mp ht), settle_refused]

theorem execStore_fault_outside (ha : (effectiveAddress s rs imm).toNat % widthBytes w = 0)
    (ht : ClearOfText s (effectiveAddress s rs imm) (widthBytes w))
    (hd : ¬ Populated s (effectiveAddress s rs imm) (widthBytes w)) :
    execStore w rt imm rs s = .fault (.outsideMemory (effectiveAddress s rs imm)) := by
  rw [execStore, storeAt_outside ((aligned_iff w _).mpr ha) ((clear_iff s _ _).mp ht)
    ((not_populated_iff s _ _).mp hd), settle_fault]

/-- Past its checks a store puts the low bytes of the register at the address, the least significant one first under
little and last under big (R65). -/
theorem execStore_stores (ha : (effectiveAddress s rs imm).toNat % widthBytes w = 0)
    (ht : ClearOfText s (effectiveAddress s rs imm) (widthBytes w))
    (hd : Populated s (effectiveAddress s rs imm) (widthBytes w)) :
    ∃ t, execStore w rt imm rs s = .next t ∧ StoredAt s t (effectiveAddress s rs imm) (widthBytes w)
      ∧ ∀ k < widthBytes w, t.byteAt (effectiveAddress s rs imm + BitVec.ofNat 32 k)
        = some (match s.cfg.endian with
          | .little => (s.readReg rt).extractLsb' (8 * k) 8
          | .big => (s.readReg rt).extractLsb' (8 * (widthBytes w - 1 - k)) 8) := by
  refine ⟨(memWrite s w (effectiveAddress s rs imm) (s.readReg rt)).advance, ?_, memWrite_stored s w _ _,
    fun k hk => (byteAt_memWrite_same s w _ _ hk).trans ?_⟩
  · rw [execStore, storeAt_inside ((aligned_iff w _).mpr ha) ((clear_iff s _ _).mp ht)
      ((populated_iff s _ _).mp hd), settle_ok]
  · cases s.cfg.endian with
    | little => rfl
    | big => rfl

end

/-- Settles O48: sw is the store of a word. -/
theorem storeWordStoresOrTraps : Obligations.StoreWordStoresOrTraps :=
  fun _ _ _ _ => ⟨raises_of_execStore_misaligned (w := .word) rfl, execStore_refused_at_text (w := .word),
    execStore_fault_outside (w := .word), execStore_stores (w := .word)⟩

/-- Settles O49: sh is the store of a halfword. -/
theorem storeHalfwordStoresOrTraps : Obligations.StoreHalfwordStoresOrTraps :=
  fun _ _ _ _ => ⟨raises_of_execStore_misaligned (w := .half) rfl, execStore_refused_at_text (w := .half),
    execStore_fault_outside (w := .half), execStore_stores (w := .half)⟩

/-- Settles O50: sb is the store of a byte; every address is a multiple of 1, and the byte is the low one in either
order. -/
theorem storeByteStores : Obligations.StoreByteStores := by
  intro s rt imm rs
  have ha : (effectiveAddress s rs imm).toNat % widthBytes .byte = 0 := Nat.mod_one _
  refine ⟨execStore_refused_at_text ha, execStore_fault_outside ha, fun ht hd => ?_⟩
  obtain ⟨t, hexec, hstored, hbytes⟩ := execStore_stores (rt := rt) ha ht hd
  have hbyte := hbytes 0 (by decide)
  rw [BitVec.add_zero] at hbyte
  refine ⟨t, hexec, hstored, hbyte.trans ?_⟩
  cases s.cfg.endian with
  | little => rfl
  | big => rfl

end Sys2Proof.Machine
end

section
/-! SUPPORT. Program control (45_program_control.md): the two ways of a branch (R99, R188, R189), the comparisons (R187,
R190 to R193), the jumps (R100, R194 to R196) and the fetch after a misaligned jr (R186). -/

namespace Sys2Proof.Machine

/-! ## Branches -/

theorem sext_eq_ofInt (imm : Imm) : sext imm = BitVec.ofInt 32 imm.toInt := rfl

/-- A shift left by two is a multiplication by four, modulo 2^32 also of a negative offset. -/
theorem sext_shiftLeft_two (imm : Imm) : sext imm <<< 2 = BitVec.ofInt 32 (4 * imm.toInt) := by
  rw [BitVec.shiftLeft_eq_mul_twoPow, BitVec.mul_comm, sext_eq_ofInt, BitVec.ofInt_mul]
  rfl

/-- The target of a taken branch as an integer modulo 2^32 (R99). -/
theorem branchTarget_eq_ofInt (pc : Word) (imm : Imm) :
    branchTarget pc imm = BitVec.ofInt 32 ((pc.toNat : Int) + 4 + 4 * imm.toInt) := by
  rw [BitVec.ofInt_add, BitVec.ofInt_add, ofInt_toNat, branchTarget, sext_shiftLeft_two]
  rfl

section
variable {i : Instr} {s : State} {taken : Bool} {imm : Imm}

theorem went_to_target_of_branchIf (hi : exec i s = branchIf taken imm s) (ht : taken = true) :
    ∃ t, exec i s = .next t ∧ WentTo s t (BitVec.ofInt 32 ((s.pc.toNat : Int) + 4 + 4 * imm.toInt)) := by
  subst ht
  rw [← branchTarget_eq_ofInt]
  exact ⟨_, hi, jump_went s _⟩

theorem went_on_of_branchIf (hi : exec i s = branchIf taken imm s) (ht : taken = false) :
    ∃ t, exec i s = .next t ∧ WentTo s t (s.pc + 4) := by
  subst ht
  exact ⟨_, hi, jump_went s _⟩

end

/-- Settles O54: beq takes its branch where the registers are equal, bne where they are not. -/
theorem branchesGoToTargetOrOn : Obligations.BranchesGoToTargetOrOn := fun _ _ _ _ =>
  ⟨fun heq => ⟨went_to_target_of_branchIf rfl (beq_iff_eq.mpr heq),
      went_on_of_branchIf rfl (bne_eq_false_iff_eq.mpr heq)⟩,
    fun hne => ⟨went_on_of_branchIf rfl (beq_false_of_ne hne), went_to_target_of_branchIf rfl (bne_iff_ne.mpr hne)⟩⟩

/-! ## Comparisons -/

theorem truthWord_lessSigned (a b : Word) : truthWord (lessSigned a b) = if a.toInt < b.toInt then 1 else 0 := by
  simp only [truthWord, lessSigned, decide_eq_true_eq]

theorem truthWord_lessUnsigned (a b : Word) : truthWord (lessUnsigned a b) = if a.toNat < b.toNat then 1 else 0 := by
  simp only [truthWord, lessUnsigned, decide_eq_true_eq]

theorem toInt_sext (imm : Imm) : (sext imm).toInt = imm.toInt := BitVec.toInt_signExtend_of_le (by decide)

/-- A sign-extended immediate as a natural number: a negative one, bit 15 set, gains 2^32 - 2^16 (R193). -/
theorem toNat_sext (imm : Imm) :
    (sext imm).toNat = if imm.toNat < 32768 then imm.toNat else imm.toNat + 4294901760 := by
  have hmod : imm.toNat % 2 ^ 32 = imm.toNat := Nat.mod_eq_of_lt (imm.isLt.trans (by decide))
  rw [sext, BitVec.toNat_signExtend, BitVec.toNat_setWidth, hmod, BitVec.msb_eq_decide]
  by_cases hneg : 32768 ≤ imm.toNat
  · simp [hneg, Nat.not_lt.mpr hneg]
  · simp [hneg, Nat.lt_of_not_le hneg]

/-- Settles O55: each instruction writes the truth of its comparison, an immediate operand being the sign-extended
one. -/
theorem setOnLessThan : Obligations.SetOnLessThan := by
  intro s rd rs rt imm
  rw [← truthWord_lessSigned, ← truthWord_lessUnsigned, ← toInt_sext, ← truthWord_lessSigned, ← toNat_sext,
    ← truthWord_lessUnsigned]
  exact ⟨completes_of_finishReg rfl, completes_of_finishReg rfl, completes_of_finishReg rfl, completes_of_finishReg rfl⟩

/-! ## Jumps -/

/-- The three parts of a jump's target do not overlap: it is the base of the jump's own 256-megabyte region and four times
the field (R100). -/
theorem jumpTarget_eq_ofNat (pc : Word) (target : Addr26) :
    jumpTarget pc target = BitVec.ofNat 32 (pc.toNat / 268435456 * 268435456 + 4 * target.toNat) := by
  apply BitVec.eq_of_toNat_eq
  have hpc := pc.isLt
  have htarget := target.isLt
  rw [jumpTarget, BitVec.toNat_append, BitVec.toNat_append, ← Nat.shiftLeft_add_eq_or_of_lt htarget,
    BitVec.extractLsb'_toNat, BitVec.toNat_zero, Nat.or_zero, BitVec.toNat_ofNat]
  simp only [Nat.shiftLeft_eq, Nat.shiftRight_eq_div_pow]
  omega

theorem exec_jr (rs : Reg) (s : State) : exec (.jr rs) s = .next (s.jump (s.readReg rs)) := rfl

/-- Settles O57: the three end in a jump, that of jal after its link is written. -/
theorem jumpsGoToTarget : Obligations.JumpsGoToTarget := by
  intro s target rs
  rw [← jumpTarget_eq_ofNat]
  exact ⟨⟨_, rfl, jump_went s _⟩, ⟨_, rfl, link_wrote s 31 (s.pc + 4) _, rfl⟩, _, exec_jr rs s, jump_went s _⟩

/-- Settles O58: jr checks nothing, so the pc it leaves is one that `misalignedFetchTraps` speaks of. -/
theorem misalignedJrTrapsAtNextFetch : Obligations.MisalignedJrTrapsAtNextFetch := by
  intro s rs hmis
  refine ⟨s.jump (s.readReg rs), exec_jr rs s, jump_went s _, fun hrun => ?_⟩
  obtain ⟨u, hstep, htrap⟩ := misalignedFetchTraps _ hrun hmis
  exact ⟨u, hstep, htrap, htrap.epc⟩

end Sys2Proof.Machine
end

section
/-! SUPPORT. Coprocessor 0 (46_coprocessor0.md): the two meanings of mfc0, EPC for register 14 (R200) and a draw for any
other (R201, U3). -/

namespace Sys2Proof.Machine

theorem exec_mfc0_epc (rt : Reg) (s : State) : exec (.mfc0 rt 14) s = .next (s.finishReg rt s.epc) := rfl

theorem exec_mfc0_of_ne {rd : Reg} (hrd : rd ≠ 14) (rt : Reg) (s : State) :
    exec (.mfc0 rt rd) s = .next (s.drawn.finishReg rt s.nextDraw) :=
  if_neg hrd

/-- Settles O59: EPC is the result of a one-register ending, whose frame holds EPC too. -/
theorem mfc0ReadsEpc : Obligations.Mfc0ReadsEpc :=
  fun s rt => completes_of_finishReg (exec_mfc0_epc rt s)

/-- Settles O60: the draw is taken before the one-register ending that writes it. -/
theorem mfc0OfOtherRegisterDraws : Obligations.Mfc0OfOtherRegisterDraws := by
  intro s rt rd hrd
  have hpc : (s.drawn.finishReg rt s.nextDraw).pc = s.pc + 4 := by rw [finishReg_pc, drawn_pc]
  exact ⟨_, exec_mfc0_of_ne hrd rt s, drawn_finishReg_wrote s rt _, hpc⟩

end Sys2Proof.Machine
end

section
/-! SUPPORT. Trap entry for each exception (R211, R214), and the invariant at every launch (R242). -/

namespace Sys2Proof.Machine

/-- Trap entry leaves the mark, and no parameter changes: under `TRAP_MODE = halt` the machine has stopped (R214). -/
theorem step_trapState_of_halt {s : State} (e : Trap) (hmode : s.cfg.trapMode = .halt) :
    step (trapState e s) = .fault (.halted ⟨e, s.pc⟩) :=
  step_of_stopped (stopped_of_halted (trapState_cfg s e ▸ hmode) (trapState_faultMark s e))

/-- Settles O13: `trapState_entered` for each exception, whose row of R211's table `trapCode` and `trapAddress` hold. -/
theorem trapEntryRecordsTheException : Obligations.TrapEntryRecordsTheException := by
  intro s e
  refine ⟨trapState e s, rfl, ?_, step_trapState_of_halt e⟩
  cases e <;> exact trapState_entered _ s

/-- Settles O17: the image is placed cell by cell in canonical form, and the registers pass over register 0. -/
theorem launchMeetsInvariant : Obligations.LaunchMeetsInvariant :=
  launch_inv

end Sys2Proof.Machine
end
